-- ==== Sys2Proof/Word.lean ====
section
/-! DEFINITION. The word types of the Feistel cipher engine, one name per width of 00_scope.md R7. -/

namespace Sys2Proof

/-- Eight bits of the byte form of a key, block or command word (R31, R48). -/
abbrev Byte := BitVec 8

/-- A 64-bit block or key (R7); position 1 is the most significant bit (R6). -/
abbrev Block := BitVec 64

/-- Half of a block, Left32 or Right32 (R7, R100). -/
abbrev Half := BitVec 32

/-- A 56-bit state of the key schedule, two halves of 28 bits (R7). -/
abbrev KeyState := BitVec 56

/-- A 48-bit subkey, and the input of the S-boxes (R7). -/
abbrev Subkey := BitVec 48

/-- The subkey store `SK[0..15]` (R16). -/
abbrev SubkeyStore := Vector Subkey 16

/-- The index `i` of `GETSK` and `ROUND`: every value 0..15 is legal and none other exists (R30, R46). -/
abbrev SubkeyIndex := Fin 16

/-- One 72-bit command word `W` (R45). -/
abbrev CommandWord := BitVec 72

end Sys2Proof
end

