-- ==== Sys2Proof/Machine/Bits.lean ====
section
/-! DEFINITION. Bit strings in the spec's numbering (00_scope.md R6, R9): positions are 1-indexed from the
most significant end. Position `p` is `v{p}`, a run of positions is `v{p..q}`. -/

namespace Sys2Proof.Machine

/-- `v{p}`: the bit of `v` at 1-indexed position `p`, position 1 the most significant (R6, R9). DESIGN CHOICE
(log 7): position 0, and a position beyond the string's length, read as 0. The spec gives no value there, and no
rule reads there on an engine that exists (R62, R164). -/
def bitAt {n : Nat} (v : BitVec n) : Nat → Bool
  | 0 => false
  | i + 1 => v.getMsbD i

/-- The n-bit string whose bit at position `p` is `f p`, for p in 1..n. -/
def ofPositions : (n : Nat) → (Nat → Bool) → BitVec n
  | 0, _ => 0#0
  | n + 1, f => (ofPositions n f).concat (f (n + 1))

/-- `v{p..p+len-1}`: `len` positions of `v` from position `p` on, keeping order (R9). Every
use of it has `1 ≤ p` and `p + len - 1 ≤ n`. -/
def substr {n : Nat} (v : BitVec n) (p len : Nat) : BitVec len :=
  v.extractLsb' (n - (p + len - 1)) len

/-- `pad64(v) = v ‖ 0^(64 - len(v))`: a value left aligned in 64 bits (R9, R34). -/
def pad64 {n : Nat} (v : BitVec n) : Block := v.setWidth 64 <<< (64 - n)

/-- The bytes of a string of `8 * k` bits, byte 0, the most significant, first (R31). -/
def toBytes : (k : Nat) → BitVec (8 * k) → List Byte
  | 0, _ => []
  | k + 1, v => v.extractLsb' (8 * k) 8 :: toBytes k (v.setWidth (8 * k))

/-- The number whose bytes are listed, byte 0 the most significant (R31: "the order is big-endian"). -/
def numOfBytes (bs : List Byte) : Nat := bs.foldl (fun n b => n * 256 + b.toNat) 0

/-- The block whose bytes 0..7 are listed (R31, R33). -/
def blockOfBytes (bs : List Byte) : Block := BitVec.ofNat 64 (numOfBytes bs)

/-- The eight bytes of a block, byte 0 first (R31). -/
def bytesOfBlock (b : Block) : List Byte := toBytes 8 b

end Sys2Proof.Machine
end

