-- ==== Sys2Proof/Config.lean ====
section
/-! DEFINITION. The two parameters of the hardware (00_scope.md R8): the constant tables `CFG` and the
strap `KS_STEPS`. Which records of tables are configurations is checked in WellFormed.lean; the default
tables stand in Machine/Tables.lean. The spec leaves no result of any command open, so there is no free value. -/

namespace Sys2Proof

/-- The configuration record `CFG` (50_config_tables.md R140). Entries are the spec's own 1-indexed
positions; entry `i` of a table stands at index `i`. -/
structure Cfg where
  /-- INITIAL_PERMUTATION, 64 to 64. -/
  ip : Vector Nat 64
  /-- INITIAL_PERMUTATION_INVERSE, 64 to 64. -/
  ipinv : Vector Nat 64
  /-- EXPANSION_PERMUTATION, 32 to 48. -/
  e : Vector Nat 48
  /-- P_FUNCTION, 32 to 32. -/
  p : Vector Nat 32
  /-- PERMUTED_CHOICE_1, 64 to 56. -/
  pc1 : Vector Nat 56
  /-- PERMUTED_CHOICE_2, 56 to 48. -/
  pc2 : Vector Nat 48
  /-- ShiftSchedule: entry `i` is the rotation count of step `i`. -/
  shift : Vector Nat 16
  /-- SBoxTable: group, then row, then column. -/
  sbox : Vector (Vector (Vector Nat 16) 4) 8
deriving DecidableEq, Repr

/-- The strap `KS_STEPS`: 16, or 15 in compat mode; there is no other setting (R8, 93_implementation_defined.md V9). -/
inductive KsSteps where
  /-- `KS_STEPS = 16`, the default: all sixteen subkeys are derived (R87). -/
  | sixteen
  /-- `KS_STEPS = 15`, compat mode: subkey 15 is not derived (R93). -/
  | fifteen
deriving DecidableEq, Repr

/-- The number of key-schedule derivation steps performed (R8). -/
def KsSteps.steps : KsSteps → Nat
  | .sixteen => 16
  | .fifteen => 15

/-- The setting a number names; any number but 15 and 16 is refused (93_implementation_defined.md V9). -/
def KsSteps.ofNat? (n : Nat) : Option KsSteps :=
  if n = 16 then some .sixteen else if n = 15 then some .fifteen else none

end Sys2Proof
end

