-- ==== Sys2Proof/Syntax.lean ====
section
/-! DEFINITION. The sixteen commands of 30_encoding.md R49, one constructor per row of the opcode table. -/

namespace Sys2Proof

/-- A command of the engine (R49). -/
inductive Instr where
  /-- `NOP` (R116). -/
  | nop
  /-- `LDKEY imm` (R90). -/
  | ldkey (imm : Block)
  /-- `LDBLK imm` (R113). -/
  | ldblk (imm : Block)
  /-- `KSGEN` (R91). -/
  | ksgen
  /-- `GETSK i` (R92). -/
  | getsk (i : SubkeyIndex)
  /-- `PERM.IP` (R66). -/
  | permIp
  /-- `PERM.IPINV` (R67). -/
  | permIpinv
  /-- `PERM.E` (R68). -/
  | permE
  /-- `PERM.P` (R69). -/
  | permP
  /-- `PERM.PC1` (R70). -/
  | permPc1
  /-- `PERM.PC2` (R71). -/
  | permPc2
  /-- `SUBST` (R80). -/
  | subst
  /-- `ROUND i` (R104). -/
  | round (i : SubkeyIndex)
  /-- `SWAP` (R105). -/
  | swap
  /-- `ENC` (R114). -/
  | enc
  /-- `DEC` (R115). -/
  | dec
deriving DecidableEq, Repr

end Sys2Proof
end

