-- ==== Sys2Proof/WellFormed.lean ====
section
/-! DEFINITION. Which configurations exist (50_config_tables.md R140) and which commands are well formed. -/

namespace Sys2Proof

/-- A table's entries all name positions `1..n` of its input (R140, R62). -/
def entriesWithin {m : Nat} (n : Nat) (t : Vector Nat m) : Bool :=
  t.toList.all fun p => Nat.ble 1 p && Nat.ble p n

/-- No entry of a list occurs twice. -/
def noRepeats : List Nat → Bool
  | [] => true
  | x :: xs => (xs.all fun y => !(Nat.beq x y)) && noRepeats xs

/-- `CFG.IP`: each entry in 1..64, and a bijection of 1..64, that is without repeats (R140). -/
def Cfg.ipOk (c : Cfg) : Bool :=
  entriesWithin 64 c.ip && noRepeats c.ip.toList

/-- `CFG.IPINV`: each entry in 1..64, and `CFG.IP[CFG.IPINV[i] - 1] = i + 1` for i in 0..63 (R140). -/
def Cfg.ipinvOk (c : Cfg) : Bool :=
  entriesWithin 64 c.ipinv &&
    (List.range 64).all fun i => Nat.beq (c.ip.toList.getD (c.ipinv.toList.getD i 0 - 1) 0) (i + 1)

/-- `CFG.E`: each entry in 1..32 (R140). -/
def Cfg.eOk (c : Cfg) : Bool := entriesWithin 32 c.e

/-- `CFG.P`: each entry in 1..32; the bijection the glossary suggests is expected, not required (R140). -/
def Cfg.pOk (c : Cfg) : Bool := entriesWithin 32 c.p

/-- `CFG.PC1`: each entry in 1..64 (R140). -/
def Cfg.pc1Ok (c : Cfg) : Bool := entriesWithin 64 c.pc1

/-- `CFG.PC2`: each entry in 1..56 (R140). -/
def Cfg.pc2Ok (c : Cfg) : Bool := entriesWithin 56 c.pc2

/-- `CFG.SHIFT`: positive integers; a count of 28 or more is legal (R140, 93_implementation_defined.md V14). -/
def Cfg.shiftOk (c : Cfg) : Bool := c.shift.toList.all fun n => Nat.ble 1 n

/-- `CFG.SBOX`: each entry in 0..15 (R140). -/
def Cfg.sboxOk (c : Cfg) : Bool :=
  c.sbox.toList.all fun box => box.toList.all fun row => row.toList.all fun v => Nat.ble v 15

/-- `CFG` is well formed when all the conditions of R140 hold; "the engine exists only for a well-formed
CFG". -/
def Cfg.wellFormed (c : Cfg) : Bool :=
  c.ipOk && c.ipinvOk && c.eOk && c.pOk && c.pc1Ok && c.pc2Ok && c.shiftOk && c.sboxOk

/-- A command is well formed when its operands fit its format: `IMM` is any 64-bit value and the index is
any of 0..15 (R46). The operand types admit nothing else (R30: "no index is out of range"), so every
term passes; the law `Instr.wellFormed_all` says so. -/
def Instr.wellFormed : Instr → Bool
  | .nop => true
  | .ldkey _ => true
  | .ldblk _ => true
  | .ksgen => true
  | .getsk i => decide (i.val < 16)
  | .permIp => true
  | .permIpinv => true
  | .permE => true
  | .permP => true
  | .permPc1 => true
  | .permPc2 => true
  | .subst => true
  | .round i => decide (i.val < 16)
  | .swap => true
  | .enc => true
  | .dec => true

end Sys2Proof
end

