-- ==== Sys2Proof/Decode.lean ====
section
/-! DEFINITION. Decoding and encoding of command words (30_encoding.md R45 to R51): the decoder, total on
any word and on any bytes, the encoder, and the opcode map of R49 as rows of a pattern and a mask. -/

namespace Sys2Proof

/-- Why bits are no command. The first two make the engine raise `ILLEGAL_CMD` (R51, R162); the last one
concerns the byte form alone (R48: "a truncated word is not a command"). -/
inductive DecodeReject where
  /-- `OP` is none of the 46 legal opcodes (R51). -/
  | unassignedOpcode (op : Byte)
  /-- A format S or N opcode with `IMM` not zero (R51). -/
  | immNotZero (op : Byte)
  /-- Fewer than the nine bytes of a word (R48). -/
  | truncated
deriving DecidableEq, Repr

/-- `OP = W[71:64]` (R45). -/
def opField (w : CommandWord) : Byte := w.extractLsb' 64 8

/-- `IMM = W[63:0]` (R45), used exactly as it stands (R47). -/
def immField (w : CommandWord) : Block := w.extractLsb' 0 64

/-- The word with the given `OP` and `IMM` (R45). -/
def commandWord (op : Byte) (imm : Block) : CommandWord := op ++ imm

/-- The index `i = num(W[67:64])`, unsigned (R47), read from `OP`. -/
def selIndex (op : Byte) : SubkeyIndex := Fin.ofNat 16 op.toNat

/-- The command of a format S or N opcode, by family `OP[7:4]` and selector `OP[3:0]` (R45, R49). -/
def decodeOpcode (op : Byte) : Option Instr :=
  match op.toNat / 16, op.toNat % 16 with
  | 0x0, 0x0 => some .nop
  | 0x2, 0x0 => some .ksgen
  | 0x3, _ => some (.getsk (selIndex op))
  | 0x4, 0x0 => some .permIp
  | 0x4, 0x1 => some .permIpinv
  | 0x4, 0x2 => some .permE
  | 0x4, 0x3 => some .permP
  | 0x4, 0x4 => some .permPc1
  | 0x4, 0x5 => some .permPc2
  | 0x5, 0x0 => some .subst
  | 0x6, _ => some (.round (selIndex op))
  | 0x7, 0x0 => some .swap
  | 0x8, 0x0 => some .enc
  | 0x8, 0x1 => some .dec
  | _, _ => none

/-- Decoding of a command word (R50, R51): exactly one command, or a rejection by name. -/
def decodeWord (w : CommandWord) : Except DecodeReject Instr :=
  if opField w = 0x10#8 then .ok (.ldkey (immField w))
  else if opField w = 0x11#8 then .ok (.ldblk (immField w))
  else
    match decodeOpcode (opField w) with
    | none => .error (.unassignedOpcode (opField w))
    | some i => if immField w = 0#64 then .ok i else .error (.immNotZero (opField w))

/-- The nine bytes of a word, `OP` first, then `IMM` byte 0 to byte 7 (R48). -/
def wordBytes (w : CommandWord) : List Byte := Machine.toBytes 9 w

/-- The word whose nine bytes are listed (R48). -/
def wordOfBytes (bs : List Byte) : CommandWord := BitVec.ofNat 72 (Machine.numOfBytes bs)

/-- Decoding of the byte form: the command of the first nine bytes, with the rest of the bytes (R48). -/
def decodeBytes (bs : List Byte) : Except DecodeReject (Instr × List Byte) :=
  if bs.length < 9 then .error .truncated
  else
    match decodeWord (wordOfBytes (bs.take 9)) with
    | .ok i => .ok (i, bs.drop 9)
    | .error r => .error r

/-- The encoder, written from the `OP` column of R49. -/
def encode : Instr → CommandWord
  | .nop => commandWord 0x00#8 0#64
  | .ldkey imm => commandWord 0x10#8 imm
  | .ldblk imm => commandWord 0x11#8 imm
  | .ksgen => commandWord 0x20#8 0#64
  | .getsk i => commandWord (0x30#8 + BitVec.ofNat 8 i.val) 0#64
  | .permIp => commandWord 0x40#8 0#64
  | .permIpinv => commandWord 0x41#8 0#64
  | .permE => commandWord 0x42#8 0#64
  | .permP => commandWord 0x43#8 0#64
  | .permPc1 => commandWord 0x44#8 0#64
  | .permPc2 => commandWord 0x45#8 0#64
  | .subst => commandWord 0x50#8 0#64
  | .round i => commandWord (0x60#8 + BitVec.ofNat 8 i.val) 0#64
  | .swap => commandWord 0x70#8 0#64
  | .enc => commandWord 0x80#8 0#64
  | .dec => commandWord 0x81#8 0#64

/-- One row of the opcode map: a word `W` is a command of the row when `W AND mask = pattern` (R49). -/
structure OpcodeRow where
  mnemonic : String
  pattern : CommandWord
  mask : CommandWord
deriving DecidableEq, Repr

/-- A word is a command of a row (R49). -/
def OpcodeRow.covers (r : OpcodeRow) (w : CommandWord) : Bool := w &&& r.mask == r.pattern

/-- The complete opcode map, in the order of R49. -/
def opcodeMap : List OpcodeRow :=
  [ ⟨"NOP", 0x000000000000000000#72, 0xFFFFFFFFFFFFFFFFFF#72⟩,
    ⟨"LDKEY", 0x100000000000000000#72, 0xFF0000000000000000#72⟩,
    ⟨"LDBLK", 0x110000000000000000#72, 0xFF0000000000000000#72⟩,
    ⟨"KSGEN", 0x200000000000000000#72, 0xFFFFFFFFFFFFFFFFFF#72⟩,
    ⟨"GETSK", 0x300000000000000000#72, 0xF0FFFFFFFFFFFFFFFF#72⟩,
    ⟨"PERM.IP", 0x400000000000000000#72, 0xFFFFFFFFFFFFFFFFFF#72⟩,
    ⟨"PERM.IPINV", 0x410000000000000000#72, 0xFFFFFFFFFFFFFFFFFF#72⟩,
    ⟨"PERM.E", 0x420000000000000000#72, 0xFFFFFFFFFFFFFFFFFF#72⟩,
    ⟨"PERM.P", 0x430000000000000000#72, 0xFFFFFFFFFFFFFFFFFF#72⟩,
    ⟨"PERM.PC1", 0x440000000000000000#72, 0xFFFFFFFFFFFFFFFFFF#72⟩,
    ⟨"PERM.PC2", 0x450000000000000000#72, 0xFFFFFFFFFFFFFFFFFF#72⟩,
    ⟨"SUBST", 0x500000000000000000#72, 0xFFFFFFFFFFFFFFFFFF#72⟩,
    ⟨"ROUND", 0x600000000000000000#72, 0xF0FFFFFFFFFFFFFFFF#72⟩,
    ⟨"SWAP", 0x700000000000000000#72, 0xFFFFFFFFFFFFFFFFFF#72⟩,
    ⟨"ENC", 0x800000000000000000#72, 0xFFFFFFFFFFFFFFFFFF#72⟩,
    ⟨"DEC", 0x810000000000000000#72, 0xFFFFFFFFFFFFFFFFFF#72⟩ ]

/-- The mnemonic of a command's row (R49). -/
def mnemonicOf : Instr → String
  | .nop => "NOP"
  | .ldkey _ => "LDKEY"
  | .ldblk _ => "LDBLK"
  | .ksgen => "KSGEN"
  | .getsk _ => "GETSK"
  | .permIp => "PERM.IP"
  | .permIpinv => "PERM.IPINV"
  | .permE => "PERM.E"
  | .permP => "PERM.P"
  | .permPc1 => "PERM.PC1"
  | .permPc2 => "PERM.PC2"
  | .subst => "SUBST"
  | .round _ => "ROUND"
  | .swap => "SWAP"
  | .enc => "ENC"
  | .dec => "DEC"

/-- The command word whose bits are the low `nbits` bits of `w`, bit 0 its least significant bit, all
higher bits 0 (log 9). -/
def tableWord (nbits w : Nat) : CommandWord := BitVec.ofNat 72 (w % 2 ^ nbits)

/-- What the decoder reads from the nine bytes of a table row's word; a word of more than 72 bits is no
command (R45: "There is one length"). -/
def decodeTableWord (nbits w : Nat) : Option Instr :=
  if nbits ≤ 72 then
    match decodeBytes (wordBytes (tableWord nbits w)) with
    | .ok (i, _) => some i
    | .error _ => none
  else none

end Sys2Proof
end

