-- ==== Sys2Proof/Machine/State.lean ====
section
/-! DEFINITION. The state of the engine (10_state.md R13), its reset value (R26), and the reasons a step of
the model can stop. An engine fault (60_exceptions.md R160) is a next state, not a stop (log 6). -/

namespace Sys2Proof.Machine

/-- What the host can do to the engine between two commands (R39, R180); reading is in Flags.lean (R23). -/
inductive HostEvent where
  /-- Present one command word (R39). -/
  | command (w : CommandWord)
  /-- Apply reset (R180). -/
  | reset
deriving DecidableEq, Repr

/-- The causes an engine fault records (R161). -/
inductive FaultCause where
  /-- `ILLEGAL_CMD`, cause 1 (R162). -/
  | illegalCmd
  /-- `SUBKEYS_NOT_READY`, cause 2 (R163). -/
  | subkeysNotReady
deriving DecidableEq, Repr

/-- The engine with its parameters and the host's pending events. The first six fields are the whole
architectural state of R13; `cfg` and `ksSteps` are the parameters of R8 (log 1); `port` is the model's own
(log 4). -/
structure State where
  /-- `KEY` (R14). -/
  key : Block
  /-- `BLK` (R15). -/
  blk : Block
  /-- `SK[0..15]` (R16). -/
  sk : SubkeyStore
  /-- `KVALID` (R17). -/
  kvalid : Bool
  /-- `FAULT` (R18). -/
  fault : Bool
  /-- `CAUSE`, the 2-bit code (R18, R161). -/
  cause : BitVec 2
  /-- The constant tables `CFG` (R22, R140): never written. -/
  cfg : Cfg
  /-- The strap `KS_STEPS` (R19, R93): never written. -/
  ksSteps : KsSteps
  /-- What the host has presented and the engine has not taken yet, oldest first (log 4). -/
  port : List HostEvent
deriving DecidableEq, Repr

/-- The reasons a step stops with a machine fault: none. The engine's own faults are recorded in `FAULT` and
`CAUSE` and the engine keeps taking events (R166, R167), so no constructor exists (log 6); safe, since a
step that cannot stop here hides no behaviour of the spec. -/
inductive Fault where
deriving DecidableEq, Repr

/-- The reasons a step is refused. -/
inductive Refusal where
  /-- Raised by an arm of `exec` for an instruction without a meaning: no arm raises it now. Safe. -/
  | notModelled (mnemonic : String)
  /-- Raised by `step` in a state whose `cfg` breaks R140: "a configuration that fails the check is refused:
  no engine exists for it" (R164, 93_implementation_defined.md V8; log 3). Safe. -/
  | malformedConfiguration
deriving DecidableEq, Repr

/-- The state after reset of an engine built from `c` and `k` (R26), with nothing presented to it. -/
def State.resetWith (c : Cfg) (k : KsSteps) : State where
  key := 0#64
  blk := 0#64
  sk := Vector.replicate 16 0#48
  kvalid := false
  fault := false
  cause := 0#2
  cfg := c
  ksSteps := k
  port := []

/-- The state after reset of the default hardware: the default tables and `KS_STEPS = 16` (R8, R26; log 2). -/
def State.reset : State := State.resetWith Cfg.default .sixteen

/-- The outcome of a step or a meaning. -/
abbrev Result := Host.Outcome State Fault Refusal

end Sys2Proof.Machine
end

