-- ==== Sys2Proof/Machine/Ops.lean ====
section
/-! DEFINITION. The shared operations on the engine's registers: writes, the checks of R50 in their order,
fault entry (R166), and reset (R180), the one way out of a fault (R167). -/

namespace Sys2Proof.Machine

/-- The code a cause records in `CAUSE` (R161). -/
def FaultCause.code : FaultCause → BitVec 2
  | .illegalCmd => 1#2
  | .subkeysNotReady => 2#2

/-- Fault entry: `FAULT <- 1; CAUSE <- c`, and nothing else (R166). -/
def State.raiseFault (s : State) (c : FaultCause) : State :=
  { s with fault := true, cause := c.code }

/-- `BLK <- v`. -/
def State.setBlk (s : State) (v : Block) : State := { s with blk := v }

/-- `KEY <- v`. -/
def State.setKey (s : State) (v : Block) : State := { s with key := v }

/-- All sixteen entries of `SK` written together (R16, R36). -/
def State.setSk (s : State) (v : SubkeyStore) : State := { s with sk := v }

/-- The first check of R50: a faulted engine ignores the word, "no effect at all" (R167). -/
def unlessFaulted (s : State) (run : State → Result) : Result :=
  if s.fault then .next s else run s

/-- The last check of R50: without valid subkeys the command takes `SUBKEYS_NOT_READY` (R163). -/
def withSubkeys (s : State) (run : State → Result) : Result :=
  if s.kvalid then run s else .next (s.raiseFault .subkeysNotReady)

/-- What a word that is no command does: `ILLEGAL_CMD`, unless the engine is faulted (R50, R162). -/
def illegalCommand (s : State) : Result :=
  unlessFaulted s fun s => .next (s.raiseFault .illegalCmd)

/-- Reset: every piece of state at its reset value (R180, R26); the tables and the strap are not touched
(R22, R26), nor what the host still has to present (log 5). -/
def State.applyReset (s : State) : State :=
  { State.resetWith s.cfg s.ksSteps with port := s.port }

/-- An engine for the tables `c` and the strap setting `n`, in its reset state: refused unless both are well
formed, "a model refuses to instantiate it" (R62, R164, 93_implementation_defined.md V8, V9). -/
def build (c : Cfg) (n : Nat) : Option State :=
  if c.wellFormed then (KsSteps.ofNat? n).map (State.resetWith c) else none

end Sys2Proof.Machine
end

