-- ==== Sys2Proof/Machine/Operands.lean ====
section
/-! DEFINITION. The operand forms of the commands: a run of leading positions of `BLK` in, a left-aligned
result out (20_memory.md R34), an entry of the subkey store, the halves of a block (43_round.md R100). -/

namespace Sys2Proof.Machine

/-- `BLK{1..n}`; `BLK{n+1..64}` is ignored (R34). -/
def State.blkTop (s : State) (n : Nat) : BitVec n := substr s.blk 1 n

/-- `BLK <- pad64(v)`: left aligned with zero fill (R34). -/
def State.setBlkTop {n : Nat} (s : State) (v : BitVec n) : State := s.setBlk (pad64 v)

/-- `SK[i]` (R16, R30). -/
def State.subkey (s : State) (i : SubkeyIndex) : Subkey := s.sk[i]

/-- Left32: positions 1..32 of a block (R100). -/
def leftHalf (b : Block) : Half := substr b 1 32

/-- Right32: positions 33..64 of a block (R100). -/
def rightHalf (b : Block) : Half := substr b 33 32

/-- `L ‖ R` (R100). -/
def joinHalves (l r : Half) : Block := l ++ r

end Sys2Proof.Machine
end

