-- ==== Sys2Proof/Machine/Permute.lean ====
section
/-! DEFINITION. The bit permutation multiplexer and the six `PERM` commands (40_permute.md). -/

namespace Sys2Proof.Machine

/-- `permute(input, T)`: output position `i + 1` is input position `T[i]`; the output has as many bits as
the table has entries (R61, R63). The precondition of R62 is part of `Cfg.wellFormed` (log 7). -/
def permute {n m : Nat} (v : BitVec n) (t : Vector Nat m) : BitVec m :=
  ofPositions m fun p => bitAt v (t.toList.getD (p - 1) 0)

/-- `PERM.IP`: `BLK <- permute(BLK, CFG.IP)` (R66). -/
def execPermIp (s : State) : Result :=
  unlessFaulted s fun s => .next (s.setBlkTop (permute (s.blkTop 64) s.cfg.ip))

/-- `PERM.IPINV`: `BLK <- permute(BLK, CFG.IPINV)` (R67). -/
def execPermIpinv (s : State) : Result :=
  unlessFaulted s fun s => .next (s.setBlkTop (permute (s.blkTop 64) s.cfg.ipinv))

/-- `PERM.E`: `BLK <- permute(BLK{1..32}, CFG.E) ‖ 0^16` (R68). -/
def execPermE (s : State) : Result :=
  unlessFaulted s fun s => .next (s.setBlkTop (permute (s.blkTop 32) s.cfg.e))

/-- `PERM.P`: `BLK <- permute(BLK{1..32}, CFG.P) ‖ 0^32` (R69). -/
def execPermP (s : State) : Result :=
  unlessFaulted s fun s => .next (s.setBlkTop (permute (s.blkTop 32) s.cfg.p))

/-- `PERM.PC1`: `BLK <- permute(BLK, CFG.PC1) ‖ 0^8` (R70). -/
def execPermPc1 (s : State) : Result :=
  unlessFaulted s fun s => .next (s.setBlkTop (permute (s.blkTop 64) s.cfg.pc1))

/-- `PERM.PC2`: `BLK <- permute(BLK{1..56}, CFG.PC2) ‖ 0^16` (R71). -/
def execPermPc2 (s : State) : Result :=
  unlessFaulted s fun s => .next (s.setBlkTop (permute (s.blkTop 56) s.cfg.pc2))

end Sys2Proof.Machine
end

