-- ==== Sys2Proof/Machine/Sbox.lean ====
section
/-! DEFINITION. The S-box substitution pipeline and `SUBST` (41_sbox.md). -/

namespace Sys2Proof.Machine

/-- The row of a 6-bit group: `2 * grp{1} + grp{6}`, the outer two bits (R76). -/
def sboxRow (grp : BitVec 6) : Fin 4 := Fin.ofNat 4 (2 * (bitAt grp 1).toNat + (bitAt grp 6).toNat)

/-- The column of a 6-bit group: `num(grp{2..5})`, the middle four bits (R76). -/
def sboxCol (grp : BitVec 6) : Fin 16 := Fin.ofNat 16 (substr grp 2 4).toNat

/-- The nibble of S-box `g` for its group: `bits_4(CFG.SBOX[g][row][col])` (R76). -/
def sboxNibble (c : Cfg) (g : Fin 8) (grp : BitVec 6) : BitVec 4 :=
  BitVec.ofNat 4 (c.sbox[g])[sboxRow grp][sboxCol grp]

/-- Group `g` of the 48-bit input: positions `6g+1 .. 6g+6` (R76, R77). -/
def sboxGroup (x : BitVec 48) (g : Fin 8) : BitVec 6 := substr x (6 * g.val + 1) 6

/-- Nibble `g` of the output, from group `g` of the input alone (R76, R79). -/
def substituteNibble (c : Cfg) (x : BitVec 48) (g : Fin 8) : BitVec 4 :=
  sboxNibble c g (sboxGroup x g)

/-- `substitute(x) = nib_0 ‖ nib_1 ‖ ... ‖ nib_7` (R76). -/
def substitute (c : Cfg) (x : BitVec 48) : Half :=
  let nib := substituteNibble c x
  nib 0 ++ nib 1 ++ nib 2 ++ nib 3 ++ nib 4 ++ nib 5 ++ nib 6 ++ nib 7

/-- `SUBST`: `BLK <- substitute(BLK{1..48}) ‖ 0^32` (R80). -/
def execSubst (s : State) : Result :=
  unlessFaulted s fun s => .next (s.setBlkTop (substitute s.cfg (s.blkTop 48)))

end Sys2Proof.Machine
end

