-- ==== Sys2Proof/Machine/Round.lean ====
section
/-! DEFINITION. The Feistel round, the half swap, and `ROUND`, `SWAP` (43_round.md). -/

namespace Sys2Proof.Machine

/-- `f(R, k) = permute(substitute(permute(R, CFG.E) XOR k), CFG.P)`: the stages `expanded`, `mixed`,
`substituted`, `permuted` of R101. -/
def roundFunction (c : Cfg) (r : Half) (k : Subkey) : Half :=
  permute (substitute c (permute r c.e ^^^ k)) c.p

/-- `round(b, k) = R ‖ (f(R, k) XOR NOT(L))` (R101); the complement of `L` is normative (R102). -/
def feistelRound (c : Cfg) (b : Block) (k : Subkey) : Block :=
  joinHalves (rightHalf b) (roundFunction c (rightHalf b) k ^^^ ~~~(leftHalf b))

/-- `swapHalves(L ‖ R) = R ‖ L` (R103). -/
def swapHalves (b : Block) : Block := joinHalves (rightHalf b) (leftHalf b)

/-- `ROUND i`: `BLK <- round(BLK, SK[i])`, when the subkeys are valid (R104). -/
def execRound (i : SubkeyIndex) (s : State) : Result :=
  unlessFaulted s fun s => withSubkeys s fun s =>
    .next (s.setBlk (feistelRound s.cfg s.blk (s.subkey i)))

/-- `SWAP`: `BLK <- swapHalves(BLK)` (R105). -/
def execSwap (s : State) : Result :=
  unlessFaulted s fun s => .next (s.setBlk (swapHalves s.blk))

end Sys2Proof.Machine
end

