-- ==== Sys2Proof/Machine/BlockProcessor.lean ====
section
/-! DEFINITION. The 16-round Feistel block processor and `LDBLK`, `ENC`, `DEC`, `NOP` (44_block.md). -/

namespace Sys2Proof.Machine

/-- `x_n`, the block after `n` rounds: `x_{i+1} = round(x_i, k i)` (R110, R112). -/
def blockAfter (c : Cfg) (k : Nat → Subkey) (x : Block) : Nat → Block
  | 0 => x
  | i + 1 => feistelRound c (blockAfter c k x i) (k i)

/-- The initial permutation, sixteen rounds with subkey `k i` in round `i`, the final swap and the inverse
permutation: the shape R110 and R111 share. -/
def cipherBlock (c : Cfg) (k : Nat → Subkey) (b : Block) : Block :=
  permute (swapHalves (blockAfter c k (permute b c.ip) 16)) c.ipinv

/-- `encryptBlock(p, sk)`: round `i` uses `sk[i]` (R110, R88). -/
def encryptBlock (c : Cfg) (sk : SubkeyStore) (p : Block) : Block :=
  cipherBlock c (fun i => sk[Fin.ofNat 16 i]) p

/-- `decryptBlock(c, sk)`: round `i` uses `sk[15 - i]` (R111, R88). -/
def decryptBlock (c : Cfg) (sk : SubkeyStore) (b : Block) : Block :=
  cipherBlock c (fun i => sk[Fin.ofNat 16 (15 - i)]) b

/-- `NOP`: no state changes (R116). -/
def execNop (s : State) : Result := .next s

/-- `LDBLK imm`: `BLK <- IMM` (R113). -/
def execLdblk (imm : Block) (s : State) : Result :=
  unlessFaulted s fun s => .next (s.setBlk imm)

/-- `ENC`: `BLK <- encryptBlock(BLK, SK)`, when the subkeys are valid (R114). -/
def execEnc (s : State) : Result :=
  unlessFaulted s fun s => withSubkeys s fun s => .next (s.setBlk (encryptBlock s.cfg s.sk s.blk))

/-- `DEC`: `BLK <- decryptBlock(BLK, SK)`, when the subkeys are valid (R115). -/
def execDec (s : State) : Result :=
  unlessFaulted s fun s => withSubkeys s fun s => .next (s.setBlk (decryptBlock s.cfg s.sk s.blk))

end Sys2Proof.Machine
end

