-- ==== Sys2Proof/Machine/Flags.lean ====
section
/-! DEFINITION. The flags: `KVALID` (R17), the read-only status register `STATUS` (R19), and all that the
host can see between commands (R23). `FAULT` and `CAUSE` are written by fault entry alone (Ops.lean). -/

namespace Sys2Proof.Machine

/-- `KVALID <- 1`, as `KSGEN` does (R17, R91). -/
def State.setKvalid (s : State) : State := { s with kvalid := true }

/-- `KVALID <- 0`, as `LDKEY` does (R17, R90). -/
def State.clearKvalid (s : State) : State := { s with kvalid := false }

/-- `KS15`: 1 when `KS_STEPS = 15` (R19). -/
def State.ks15 (s : State) : Bool := decide (s.ksSteps.steps = 15)

/-- `STATUS` (R19): bits 7:5 hardwired 0, bit 4 `KS15`, bits 3:2 `CAUSE`, bit 1 `FAULT`, bit 0 `KVALID`. -/
def State.status (s : State) : Byte :=
  0#3 ++ BitVec.ofBool s.ks15 ++ s.cause ++ BitVec.ofBool s.fault ++ BitVec.ofBool s.kvalid

/-- What the host reads between commands, with no side effect: `BLK` and `STATUS` and nothing else (R23). -/
structure HostView where
  blk : Block
  status : Byte
deriving DecidableEq, Repr

/-- The host's view of a state (R23). -/
def State.hostView (s : State) : HostView := ⟨s.blk, s.status⟩

end Sys2Proof.Machine
end

