-- ==== Sys2Proof/Machine/KeySchedule.lean ====
section
/-! DEFINITION. The subkey schedule generator and `LDKEY`, `KSGEN`, `GETSK` (42_keyschedule.md). -/

namespace Sys2Proof.Machine

/-- `rotl28(h, s)`: `out{p} = h{((p - 1 + s) mod 28) + 1}` (R85). -/
def rotl28 (h : BitVec 28) (s : Nat) : BitVec 28 :=
  ofPositions 28 fun p => bitAt h ((p - 1 + s) % 28 + 1)

/-- `RotateHalves(state, s)`: each 28-bit half rotated on its own (R86). -/
def rotateHalves (st : KeyState) (s : Nat) : KeyState :=
  rotl28 (substr st 1 28) s ++ rotl28 (substr st 29 28) s

/-- `state_i` of the key schedule: `state_0 = permute(key, CFG.PC1)`, and each later state is the one before
it rotated by `CFG.SHIFT[i]` (R87). -/
def keyState (c : Cfg) (key : Block) : Nat → KeyState
  | 0 => permute key c.pc1
  | i + 1 => rotateHalves (keyState c key i) (c.shift.toList.getD i 0)

/-- `subkey_i`: `permute(state_{i+1}, CFG.PC2)` while `i < KS_STEPS`, else `0^48` (R87, R93). -/
def derivedSubkey (c : Cfg) (k : KsSteps) (key : Block) (i : Nat) : Subkey :=
  if i < k.steps then permute (keyState c key (i + 1)) c.pc2 else 0#48

/-- `generateSubkeys(key)` (R87). -/
def generateSubkeys (c : Cfg) (k : KsSteps) (key : Block) : SubkeyStore :=
  Vector.ofFn fun i => derivedSubkey c k key i.val

/-- `LDKEY imm`: `KEY <- IMM; KVALID <- 0` (R90). -/
def execLdkey (imm : Block) (s : State) : Result :=
  unlessFaulted s fun s => .next (s.setKey imm).clearKvalid

/-- `KSGEN`: `SK <- generateSubkeys(KEY); KVALID <- 1` (R91). -/
def execKsgen (s : State) : Result :=
  unlessFaulted s fun s => .next (s.setSk (generateSubkeys s.cfg s.ksSteps s.key)).setKvalid

/-- `GETSK i`: `BLK <- SK[i] ‖ 0^16`, when the subkeys are valid (R92). -/
def execGetsk (i : SubkeyIndex) (s : State) : Result :=
  unlessFaulted s fun s => withSubkeys s fun s => .next (s.setBlkTop (s.subkey i))

end Sys2Proof.Machine
end

