-- ==== Sys2Proof/Machine/Dispatch.lean ====
section
/-! DEFINITION. One arm per command of the opcode map (30_encoding.md R49), each one call of its meaning. -/

namespace Sys2Proof.Machine

def exec (i : Instr) (s : State) : Host.Outcome State Fault Refusal :=
  match i with
  | .nop => Sys2Proof.Machine.execNop s
  | .ldkey imm => Sys2Proof.Machine.execLdkey imm s
  | .ldblk imm => Sys2Proof.Machine.execLdblk imm s
  | .ksgen => Sys2Proof.Machine.execKsgen s
  | .getsk n => Sys2Proof.Machine.execGetsk n s
  | .permIp => Sys2Proof.Machine.execPermIp s
  | .permIpinv => Sys2Proof.Machine.execPermIpinv s
  | .permE => Sys2Proof.Machine.execPermE s
  | .permP => Sys2Proof.Machine.execPermP s
  | .permPc1 => Sys2Proof.Machine.execPermPc1 s
  | .permPc2 => Sys2Proof.Machine.execPermPc2 s
  | .subst => Sys2Proof.Machine.execSubst s
  | .round n => Sys2Proof.Machine.execRound n s
  | .swap => Sys2Proof.Machine.execSwap s
  | .enc => Sys2Proof.Machine.execEnc s
  | .dec => Sys2Proof.Machine.execDec s

end Sys2Proof.Machine
end

