-- ==== Sys2Proof/Machine/Port.lean ====
section
/-! DEFINITION. The engine's host side: one command word run with the order of checks of R50, one event of
the host taken, and the step over the pending events (log 4). -/

namespace Sys2Proof.Machine

/-- What a command word presented to the engine does (R50): a word of the opcode map runs its command, any
other raises `ILLEGAL_CMD`. -/
def runWord (w : CommandWord) (s : State) : Result :=
  match decodeWord w with
  | .ok i => exec i s
  | .error _ => illegalCommand s

/-- What an event of the host does (R39, R180). -/
def applyEvent (e : HostEvent) (s : State) : Result :=
  match e with
  | .command w => runWord w s
  | .reset => .next s.applyReset

/-- One step: the oldest pending event, or, when the host has presented nothing, an idle engine that holds
its state (R174). No engine exists for a malformed configuration (R164; log 3). -/
def takeStep (s : State) : Result :=
  if s.cfg.wellFormed then
    match s.port with
    | [] => .next s
    | e :: rest => applyEvent e { s with port := rest }
  else .refused .malformedConfiguration

/-- The host presents a word ahead of everything pending: the next step takes it. -/
def State.presentFirst (s : State) (w : CommandWord) : State :=
  { s with port := .command w :: s.port }

end Sys2Proof.Machine
end

