-- ==== Sys2Proof/Machine/Step.lean ====
section
/-! DEFINITION. The step of the machine and the placing of a word where the step takes its next command. -/

namespace Sys2Proof.Machine

/-- One step of the engine: it takes the host's oldest pending event (R39; log 4). -/
def step (s : State) : Host.Outcome State Fault Refusal := takeStep s

/-- `s` with the opcode table's word `w` presented as its next command (log 9). -/
def State.withFetchWord (s : State) (nbits w : Nat) : State := s.presentFirst (tableWord nbits w)

end Sys2Proof.Machine
end

