-- ==== Sys2Proof/Machine/Listing.lean ====
section
/-! DEFINITION. The listing syntax of 30_encoding.md R53 and the pseudo-commands of R54: a line as data, its
check, its expansion into commands, and the reading of a line's characters (log 12). The engine never sees
a listing; it receives the words of the commands (R48). -/

namespace Sys2Proof.Machine

/-- The operand `imm` of a listing line: a numeral of hexadecimal digits or a text of ASCII characters (R53). -/
inductive ImmOperand where
  | hex (digits : List (BitVec 4))
  | text (chars : List Char)
deriving DecidableEq, Repr

/-- A listing line: a command with no operand, a command with its operand as written (R53), or one of the
five pseudo-commands (R54). -/
inductive Line where
  | plain (i : Instr)
  | ldkey (imm : ImmOperand)
  | ldblk (imm : ImmOperand)
  | getsk (i : Nat)
  | round (i : Nat)
  | setkey (imm : ImmOperand)
  | encblk (imm : ImmOperand)
  | decblk (imm : ImmOperand)
  | perm (t : Nat)
  | dround (i : Nat)
deriving DecidableEq, Repr

/-- An ASCII character (R33, R53). -/
def isAscii (c : Char) : Bool := Nat.blt c.toNat 128

/-- A text of exactly 8 ASCII characters (R33, R53). -/
def isText8 (cs : List Char) : Bool := cs.length == 8 && cs.all isAscii

/-- The block a text of 8 ASCII characters stands for: character 0 is byte 0 (R33). -/
def blockOfText (cs : List Char) : Block := blockOfBytes (cs.map fun c => BitVec.ofNat 8 c.toNat)

/-- The block a numeral of 16 hexadecimal digits stands for: the first digit is positions 1..4 (R53). -/
def blockOfHex (ds : List (BitVec 4)) : Block :=
  BitVec.ofNat 64 (ds.foldl (fun n d => n * 16 + d.toNat) 0)

/-- Exactly 16 hexadecimal digits, or exactly 8 ASCII characters (R53). -/
def ImmOperand.wellFormed : ImmOperand → Bool
  | .hex ds => ds.length == 16
  | .text cs => isText8 cs

/-- The 64 bits of an operand (R53, R33). -/
def ImmOperand.value : ImmOperand → Block
  | .hex ds => blockOfHex ds
  | .text cs => blockOfText cs

/-- A line's operands are in range: indices 0..15, table numbers 0..5 (R53, R54). -/
def Line.wellFormed : Line → Bool
  | .plain i => i.wellFormed
  | .ldkey imm => imm.wellFormed
  | .ldblk imm => imm.wellFormed
  | .getsk i => Nat.blt i 16
  | .round i => Nat.blt i 16
  | .setkey imm => imm.wellFormed
  | .encblk imm => imm.wellFormed
  | .decblk imm => imm.wellFormed
  | .perm t => Nat.blt t 6
  | .dround i => Nat.blt i 16

/-- The command of table number `t`: 0 `IP`, 1 `IPINV`, 2 `E`, 3 `P`, 4 `PC1`, 5 `PC2` (R49, R54). -/
def permOfTable : Nat → List Instr
  | 0 => [.permIp]
  | 1 => [.permIpinv]
  | 2 => [.permE]
  | 3 => [.permP]
  | 4 => [.permPc1]
  | 5 => [.permPc2]
  | _ => []

/-- The commands a well-formed line stands for (R53, R54). -/
def Line.commands : Line → List Instr
  | .plain i => [i]
  | .ldkey imm => [.ldkey imm.value]
  | .ldblk imm => [.ldblk imm.value]
  | .getsk i => [.getsk (Fin.ofNat 16 i)]
  | .round i => [.round (Fin.ofNat 16 i)]
  | .setkey imm => [.ldkey imm.value, .ksgen]
  | .encblk imm => [.ldblk imm.value, .enc]
  | .decblk imm => [.ldblk imm.value, .dec]
  | .perm t => permOfTable t
  | .dround i => [.round (Fin.ofNat 16 (15 - i))]

/-- The commands of a line, none where the line is ill formed. -/
def Line.expand (l : Line) : Option (List Instr) := if l.wellFormed then some l.commands else none

/-- A piece of a listing line: a word, or the characters between double quotes. -/
inductive Token where
  | word (cs : List Char)
  | quoted (cs : List Char)
deriving DecidableEq, Repr

/-- The word read so far, put after the tokens before it (both kept newest first). -/
def pushWord (cur : List Char) (acc : List Token) : List Token :=
  if cur.isEmpty then acc else .word cur.reverse :: acc

/-- The tokens of a line, oldest first; `;` outside quotes starts a comment to the end of the line (R53). `cur`
is the word or text read so far, newest character first. None for an unclosed quote or one inside a word. -/
def lexFrom (inQuote : Bool) (cur : List Char) (acc : List Token) : List Char → Option (List Token)
  | [] => if inQuote then none else some (pushWord cur acc).reverse
  | c :: cs =>
    if inQuote then
      if c = '"' then lexFrom false [] (.quoted cur.reverse :: acc) cs else lexFrom true (c :: cur) acc cs
    else if c = ';' then some (pushWord cur acc).reverse
    else if c = ' ' then lexFrom false [] (pushWord cur acc) cs
    else if c = '"' then if cur.isEmpty then lexFrom true [] acc cs else none
    else lexFrom false (c :: cur) acc cs

/-- The value of a hexadecimal digit. -/
def hexDigit (c : Char) : Option (BitVec 4) :=
  let n := c.toNat
  if Nat.ble 48 n && Nat.ble n 57 then some (BitVec.ofNat 4 (n - 48))
  else if Nat.ble 65 n && Nat.ble n 70 then some (BitVec.ofNat 4 (n - 55))
  else if Nat.ble 97 n && Nat.ble n 102 then some (BitVec.ofNat 4 (n - 87))
  else none

/-- A decimal integer (R53). -/
def decimal (cs : List Char) : Option Nat :=
  if cs.isEmpty then none
  else cs.foldl (fun n c => n.bind fun n =>
    if Nat.ble 48 c.toNat && Nat.ble c.toNat 57 then some (n * 10 + (c.toNat - 48)) else none) (some 0)

/-- The operand `imm` written by a token: `0x` and digits, or a quoted text (R53). -/
def immOfToken : Token → Option ImmOperand
  | .word ('0' :: 'x' :: ds) => (ds.mapM hexDigit).map .hex
  | .word _ => none
  | .quoted cs => some (.text cs)

/-- The index or table number written by a token (R53). -/
def natOfToken : Token → Option Nat
  | .word cs => decimal cs
  | .quoted _ => none

/-- The commands with no operand, by mnemonic (R49). -/
def plainOfMnemonic (m : String) : Option Instr :=
  [("NOP", Instr.nop), ("KSGEN", .ksgen), ("PERM.IP", .permIp), ("PERM.IPINV", .permIpinv), ("PERM.E", .permE),
    ("PERM.P", .permP), ("PERM.PC1", .permPc1), ("PERM.PC2", .permPc2), ("SUBST", .subst), ("SWAP", .swap),
    ("ENC", .enc), ("DEC", .dec)].lookup m

/-- The line with an operand, by mnemonic (R49, R54). -/
def lineOfOperand (m : String) (t : Token) : Option Line :=
  if m = "LDKEY" then (immOfToken t).map .ldkey
  else if m = "LDBLK" then (immOfToken t).map .ldblk
  else if m = "GETSK" then (natOfToken t).map .getsk
  else if m = "ROUND" then (natOfToken t).map .round
  else if m = "SETKEY" then (immOfToken t).map .setkey
  else if m = "ENCBLK" then (immOfToken t).map .encblk
  else if m = "DECBLK" then (immOfToken t).map .decblk
  else if m = "PERM" then (natOfToken t).map .perm
  else if m = "DROUND" then (natOfToken t).map .dround
  else none

/-- The line a list of tokens writes: one mnemonic, then its operand if it has one (R53). -/
def lineOfTokens : List Token → Option Line
  | [.word m] => (plainOfMnemonic (String.ofList m)).map .plain
  | [.word m, t] => lineOfOperand (String.ofList m) t
  | _ => none

/-- The command words of one listing line, in order; a line of blanks or comment alone has none (log 12). -/
def assembleLine (cs : List Char) : Option (List CommandWord) :=
  match lexFrom false [] [] cs with
  | none => none
  | some [] => some []
  | some ts => (lineOfTokens ts).bind fun l => l.expand.map fun is => is.map encode

end Sys2Proof.Machine
end

