-- ==== Sys2Proof/Machine/HostStream.lean ====
section
/-! DEFINITION. The host's side (45_host_stream.md): key check, block loop, space padding, ECB, ciphertext
framing, and the run of R137 as commands presented to the engine. None of it is done by the engine; files
and command-line parsing are out of scope (00_scope.md R5). -/

namespace Sys2Proof.Machine

/-- What ends a run of the host. None of these sets `FAULT` (R175). -/
inductive HostError where
  /-- The key is not exactly 8 ASCII characters: "else invocation fails" (R131). -/
  | keyRejected
  /-- FormatError (R135): a character other than `'0'` and `'1'` (R132), or a partial last chunk on
  decryption (R129); also a bit text that ends inside a byte (log 11). -/
  | formatError
  /-- `STATUS.FAULT = 1`: "stop; the run has failed" (R137). -/
  | engineFault
deriving DecidableEq, Repr

/-- The direction of a run: `-e` or `-d` (R134). -/
inductive Direction where
  | encrypt
  | decrypt
deriving DecidableEq, Repr

/-- The framing of the ciphertext stream: bit text by default, raw bytes with `-b` (R132, R133). -/
inductive Framing where
  | bitText
  | raw
deriving DecidableEq, Repr

/-- The default output name: `<input>.enc` or `<input>dec`, with no dot (R134). -/
def defaultOutputName (d : Direction) (input : String) : String :=
  match d with
  | .encrypt => input ++ ".enc"
  | .decrypt => input ++ "dec"

/-- The key a text names, accepted only if it is exactly 8 ASCII characters (R131, R33). -/
def hostKey (cs : List Char) : Except HostError Block :=
  if isText8 cs then .ok (blockOfText cs) else .error .keyRejected

/-- The blocks of an encryption input, 8 bytes at a time (R125); a last chunk of 1 to 7 bytes is padded with
ASCII spaces, and an empty remainder gives no block (R126). -/
def padBlocks : List Byte → List Block
  | b0 :: b1 :: b2 :: b3 :: b4 :: b5 :: b6 :: b7 :: rest =>
    blockOfBytes [b0, b1, b2, b3, b4, b5, b6, b7] :: padBlocks rest
  | [] => []
  | short => [blockOfBytes (short ++ List.replicate (8 - short.length) 0x20#8)]

/-- The blocks of a decryption input, whole 8-byte blocks only: a short trailing chunk "must be rejected as
an error" (R128, R129). -/
def wholeBlocks : List Byte → Except HostError (List Block)
  | b0 :: b1 :: b2 :: b3 :: b4 :: b5 :: b6 :: b7 :: rest =>
    match wholeBlocks rest with
    | .ok bs => .ok (blockOfBytes [b0, b1, b2, b3, b4, b5, b6, b7] :: bs)
    | .error e => .error e
  | [] => .ok []
  | _ => .error .formatError

/-- The bytes of a list of blocks, in order, byte 0 of each first (R125, R137). -/
def bytesOfBlocks (bs : List Block) : List Byte := bs.flatMap bytesOfBlock

/-- One bit of bit text (R132). -/
def bitChar (b : Bool) : Char := if b then '1' else '0'

/-- The bit a character of bit text stands for (R132). -/
def charBit (c : Char) : Option Bool :=
  if c = '1' then some true else if c = '0' then some false else none

/-- Eight characters, most significant bit first (R132). -/
def bitTextOfByte (b : Byte) : List Char := (List.range 8).map fun i => bitChar (bitAt b (i + 1))

/-- Bit-text framing of a ciphertext (R132). -/
def toBitText (bs : List Byte) : List Char := bs.flatMap bitTextOfByte

/-- The byte of eight bits, most significant first. -/
def byteOfBits (bs : List Bool) : Byte := BitVec.ofNat 8 (bs.foldl (fun n b => n * 2 + b.toNat) 0)

/-- Bytes of a list of bits, 8 at a time; a count that is no multiple of 8 is a FormatError (log 11). -/
def bytesOfBits : List Bool → Except HostError (List Byte)
  | b0 :: b1 :: b2 :: b3 :: b4 :: b5 :: b6 :: b7 :: rest =>
    match bytesOfBits rest with
    | .ok bs => .ok (byteOfBits [b0, b1, b2, b3, b4, b5, b6, b7] :: bs)
    | .error e => .error e
  | [] => .ok []
  | _ => .error .formatError

/-- Bit text read back: "any character other than '0'/'1' is a fatal format error" (R132). -/
def ofBitText (cs : List Char) : Except HostError (List Byte) :=
  match cs.mapM charBit with
  | none => .error .formatError
  | some bits => bytesOfBits bits

/-- The bytes of a stream that is held as characters, one byte a character. -/
def rawBytes (cs : List Char) : List Byte := cs.map fun c => BitVec.ofNat 8 c.toNat

/-- A ciphertext as it is written: bit text, or "unmodified, one-to-one with block bytes" (R132, R133). -/
def frameCiphertext (f : Framing) (bs : List Byte) : List Byte :=
  match f with
  | .bitText => rawBytes (toBitText bs)
  | .raw => bs

/-- A ciphertext as it is read: the framing undone (R128, R132, R133). -/
def unframeCiphertext (f : Framing) (bs : List Byte) : Except HostError (List Byte) :=
  match f with
  | .bitText => ofBitText (bs.map fun b => Char.ofNat b.toNat)
  | .raw => .ok bs

/-- The command of a run's direction (R134, R137). -/
def Direction.command : Direction → Instr
  | .encrypt => .enc
  | .decrypt => .dec

/-- One command presented to the engine, after which the host stops if `STATUS.FAULT = 1` (R137). -/
def presentCommand (i : Instr) (s : State) : Except HostError State :=
  match runWord (encode i) s with
  | .next s' => if s'.status.getLsbD 1 then .error .engineFault else .ok s'
  | .fault _ => .error .engineFault
  | .refused _ => .error .engineFault

/-- The loop of R137 over the blocks: `LDBLK b`, then `ENC` or `DEC`, then read `BLK`. ECB: no block's result
goes into another (R130). -/
def hostBlocks (d : Direction) : List Block → State → Except HostError (List Block)
  | [], _ => .ok []
  | b :: bs, s =>
    match presentCommand (.ldblk b) s with
    | .error e => .error e
    | .ok s1 =>
      match presentCommand d.command s1 with
      | .error e => .error e
      | .ok s2 =>
        match hostBlocks d bs s2 with
        | .error e => .error e
        | .ok out => .ok (s2.hostView.blk :: out)

/-- A run from an engine state: `SETKEY key` once, then the blocks (R131, R137). -/
def hostRun (d : Direction) (key : Block) (bs : List Block) (s : State) : Except HostError (List Block) :=
  match presentCommand (.ldkey key) s with
  | .error e => .error e
  | .ok s1 =>
    match presentCommand .ksgen s1 with
    | .error e => .error e
    | .ok s2 => hostBlocks d bs s2

/-- A whole encryption run on a freshly reset engine: the bytes of the ciphertext stream (R125, R126, R137). -/
def encryptStream (f : Framing) (key : List Char) (input : List Byte) (s : State) :
    Except HostError (List Byte) :=
  match hostKey key with
  | .error e => .error e
  | .ok k =>
    match hostRun .encrypt k (padBlocks input) s with
    | .error e => .error e
    | .ok out => .ok (frameCiphertext f (bytesOfBlocks out))

/-- A whole decryption run on a freshly reset engine: the bytes of the plaintext, padding kept (R127 to R129,
R137). -/
def decryptStream (f : Framing) (key : List Char) (input : List Byte) (s : State) :
    Except HostError (List Byte) :=
  match hostKey key with
  | .error e => .error e
  | .ok k =>
    match unframeCiphertext f input with
    | .error e => .error e
    | .ok bytes =>
      match wholeBlocks bytes with
      | .error e => .error e
      | .ok bs =>
        match hostRun .decrypt k bs s with
        | .error e => .error e
        | .ok out => .ok (bytesOfBlocks out)

end Sys2Proof.Machine
end

