-- ==== Sys2Proof/Machine/Run.lean ====
section
/-! DEFINITION. Runs (70_reset_and_hazards.md R189): the commands between one reset and the next, the state they end
in, when a run is good, and the observable result of a good run (log 13). -/

namespace Sys2Proof.Machine

/-- The engine is in a good state: `FAULT = 0` (R189). -/
def State.good (s : State) : Prop := s.fault = false

/-- The data commands: the ones that take `BLK` as operand and leave their result in it (10_state.md R13, R25).
`LDBLK` and `GETSK` are named beside them, not among them (R185). DEDUCED (log 13). -/
def isDataCommand : Instr → Bool
  | .nop => false
  | .ldkey _ => false
  | .ldblk _ => false
  | .ksgen => false
  | .getsk _ => false
  | .permIp => true
  | .permIpinv => true
  | .permE => true
  | .permP => true
  | .permPc1 => true
  | .permPc2 => true
  | .subst => true
  | .round _ => true
  | .swap => true
  | .enc => true
  | .dec => true

/-- The word is a data command's. -/
def isDataWord (w : CommandWord) : Bool :=
  match decodeWord w with
  | .ok i => isDataCommand i
  | .error _ => false

/-- One command of a run: its word, and whether the host reads `BLK` after it, before the next command (R23). The
host need not read every result (R189). -/
structure RunItem where
  word : CommandWord
  read : Bool
deriving DecidableEq, Repr

/-- Where a run ends: "the engine state after the last command presented" (R189), and the `BLK` values the host
read after data commands, in order. -/
structure RunEnd where
  final : State
  reads : List Block
deriving DecidableEq, Repr

/-- A run is good when `FAULT = 0` in its final state (R189). -/
def RunEnd.good (e : RunEnd) : Prop := e.final.good

/-- The observable result of a good run; a run in which `FAULT` was set has none: "its `BLK` is not a result"
(R167, R189). -/
def RunEnd.result (e : RunEnd) : Option (List Block) := if e.final.fault then none else some e.reads

/-- What the host reads after one command that left the state `t`, put before what it reads later. -/
def RunItem.record (r : RunItem) (t : State) (later : List Block) : List Block :=
  if r.read && isDataWord r.word then t.hostView.blk :: later else later

/-- The commands of a run, one after the other (R39), with what the host reads. -/
def runFrom : List RunItem → State → Host.Outcome RunEnd Fault Refusal
  | [], s => .next ⟨s, []⟩
  | r :: rs, s =>
    match runWord r.word s with
    | .next t =>
      match runFrom rs t with
      | .next e => .next ⟨e.final, r.record t e.reads⟩
      | .fault f => .fault f
      | .refused f => .refused f
    | .fault f => .fault f
    | .refused f => .refused f

/-- A run of an engine: it begins in the reset state (R180, R189). -/
def runOf (c : Cfg) (k : KsSteps) (items : List RunItem) : Host.Outcome RunEnd Fault Refusal :=
  runFrom items (State.resetWith c k)

/-- The host's events split at the resets: the commands before the first reset, between one reset and the next, and
after the last one (R189). -/
def runsOf : List HostEvent → List (List CommandWord)
  | [] => [[]]
  | .reset :: es => [] :: runsOf es
  | .command w :: es =>
    match runsOf es with
    | [] => [[w]]
    | r :: rs => (w :: r) :: rs

end Sys2Proof.Machine
end

