-- ==== Sys2Proof/Safety.lean ====
section
/-! DEFINITION. Sequences of commands and of the host's events, and the invariants the claims speak of. What
counts as a good run (70_reset_and_hazards.md R189) stands in Machine/Run.lean. -/

namespace Sys2Proof.Machine

/-- The fault registers agree: `CAUSE` is 0 exactly when `FAULT` is 0, and 3 is never produced (R18, R161). -/
def State.faultConsistent (s : State) : Prop := (s.fault = true ↔ s.cause ≠ 0#2) ∧ s.cause ≠ 3#2

/-- `KVALID` is 1 only when `SK` holds the subkeys generated from the current `KEY` (R13). -/
def State.subkeysCurrent (s : State) : Prop :=
  s.kvalid = true → s.sk = generateSubkeys s.cfg s.ksSteps s.key

/-- A list of commands, one after the other (R39), stopping at the first stop. -/
def execAll : List Instr → State → Result
  | [], s => .next s
  | i :: is, s =>
    match exec i s with
    | .next s' => execAll is s'
    | .fault r => .fault r
    | .refused r => .refused r

/-- A list of the host's events, one after the other (R39, R180), stopping at the first stop. -/
def applyEvents : List HostEvent → State → Result
  | [], s => .next s
  | e :: es, s =>
    match applyEvent e s with
    | .next s' => applyEvents es s'
    | .fault r => .fault r
    | .refused r => .refused r

end Sys2Proof.Machine
end

