-- ==== Sys2Proof/Certificates/Slice0/Obligations.lean ====
section
/-! DEFINITION. The statements about the engine, from the numbered rules of spec/. The engine has no memory
(20_memory.md R30), so a frame speaks of the registers; a conclusion `exec i s = .next { s with … }` is a
result, its whole frame and the completion of `i` at once. -/

open Sys2Proof Sys2Proof.Machine

/-! ## Encoding -/

/-- Every command is what its own encoding decodes to, as a word and as bytes with anything after them
(R47 to R50). -/
def Obligations.DecodeInvertsEncode : Prop :=
  ∀ (i : Instr) (rest : List Byte), i.wellFormed = true →
    decodeWord (encode i) = .ok i ∧ decodeBytes (wordBytes (encode i) ++ rest) = .ok (i, rest)

/-- A word that decodes to a command is that command's encoding: no two words are one command (R49). -/
def Obligations.EncodeInvertsDecode : Prop :=
  ∀ (w : CommandWord) (i : Instr), decodeWord w = .ok i → encode i = w

/-- A word is the command of a row exactly when `W AND mask = match`, and no word matches two rows (R49). -/
def Obligations.DecodeFollowsOpcodeMap : Prop :=
  ∀ w : CommandWord,
    (∀ i, decodeWord w = .ok i → ∃ r ∈ opcodeMap, r.mnemonic = mnemonicOf i ∧ w &&& r.mask = r.pattern) ∧
    (∀ r ∈ opcodeMap, w &&& r.mask = r.pattern → ∃ i, decodeWord w = .ok i ∧ mnemonicOf i = r.mnemonic) ∧
    (∀ r ∈ opcodeMap, ∀ r' ∈ opcodeMap, w &&& r.mask = r.pattern → w &&& r'.mask = r'.pattern → r = r')

/-- The illegal words by opcode and `IMM`, and what each of them does to an engine without a fault (R51). -/
def Obligations.IllegalWordsByOpcode : Prop :=
  ∀ (w : CommandWord) (s : State) (op : Nat), op = (w.extractLsb' 64 8).toNat →
    ((¬(op = 0x00 ∨ op = 0x10 ∨ op = 0x11 ∨ op = 0x20 ∨ (0x30 ≤ op ∧ op ≤ 0x3F) ∨ (0x40 ≤ op ∧ op ≤ 0x45) ∨
        op = 0x50 ∨ (0x60 ≤ op ∧ op ≤ 0x6F) ∨ op = 0x70 ∨ op = 0x80 ∨ op = 0x81) ∨
      (op ≠ 0x10 ∧ op ≠ 0x11 ∧ w.extractLsb' 0 64 ≠ 0#64)) ↔ ∃ r, decodeWord w = .error r) ∧
    ((∃ r, decodeWord w = .error r) → s.fault = false →
      runWord w s = .next { s with fault := true, cause := 1#2 })

/-- Operands are the fields of the word: position `p` of the key or block is `W[64-p]`, the index is
`num(W[67:64])` (R47). -/
def Obligations.DecodedOperandsAreFieldsOfTheWord : Prop :=
  ∀ w : CommandWord,
    (∀ k, decodeWord w = .ok (.ldkey k) → ∀ p, 1 ≤ p → p ≤ 64 → bitAt k p = w.getLsbD (64 - p)) ∧
    (∀ b, decodeWord w = .ok (.ldblk b) → ∀ p, 1 ≤ p → p ≤ 64 → bitAt b p = w.getLsbD (64 - p)) ∧
    (∀ n, decodeWord w = .ok (.getsk n) → n.val = (w.extractLsb' 64 4).toNat) ∧
    (∀ n, decodeWord w = .ok (.round n) → n.val = (w.extractLsb' 64 4).toNat)

/-- The byte form: nine bytes, byte `j` is `W[71-8j : 64-8j]`; fewer than nine bytes are no command; the two
example words (R48). -/
def Obligations.ByteFormIsOpFirst : Prop :=
  (∀ (w : CommandWord) (rest : List Byte),
    (wordBytes w).length = 9 ∧
    (∀ j, j < 9 → (wordBytes w)[j]? = some (w.extractLsb' (64 - 8 * j) 8)) ∧
    (∀ i, decodeBytes (wordBytes w ++ rest) = .ok (i, rest) ↔ decodeWord w = .ok i)) ∧
  (∀ bs : List Byte, bs.length < 9 → decodeBytes bs = .error .truncated) ∧
  wordBytes (encode (.ldkey 0x3132333435363738#64)) =
    [0x10#8, 0x31#8, 0x32#8, 0x33#8, 0x34#8, 0x35#8, 0x36#8, 0x37#8, 0x38#8] ∧
  wordBytes (encode .enc) = [0x80#8, 0#8, 0#8, 0#8, 0#8, 0#8, 0#8, 0#8, 0#8]

/-- Words written out from the spec's encodings, one or more of every family (R49, 95_test_vectors.md
section 7 and 8). -/
def Obligations.SampleWordsDecode : Prop :=
  decodeTableWord 72 0x000000000000000000 = some .nop ∧
  decodeTableWord 72 0x103132333435363738 = some (.ldkey 0x3132333435363738#64) ∧
  decodeTableWord 72 0x114142434445464748 = some (.ldblk 0x4142434445464748#64) ∧
  decodeTableWord 72 0x200000000000000000 = some .ksgen ∧
  decodeTableWord 72 0x3F0000000000000000 = some (.getsk 15) ∧
  decodeTableWord 72 0x450000000000000000 = some .permPc2 ∧
  decodeTableWord 72 0x500000000000000000 = some .subst ∧
  decodeTableWord 72 0x6A0000000000000000 = some (.round 10) ∧
  decodeTableWord 72 0x700000000000000000 = some .swap ∧
  decodeTableWord 72 0x810000000000000000 = some .dec ∧
  decodeTableWord 72 0x460000000000000000 = none ∧
  decodeTableWord 72 0x800000000000000001 = none

/-! ## The step -/

/-- The step takes the oldest presented word; when it decodes to a command, the step is that command's
meaning on the state without that word in its port (R39, R50; the port is the model's own, log 4). -/
def Obligations.StepRunsTheDecodedCommand : Prop :=
  ∀ (s : State) (w : CommandWord) (rest : List HostEvent) (i : Instr),
    s.cfg.wellFormed = true → s.port = .command w :: rest → decodeWord w = .ok i →
      step s = exec i { s with port := rest }

/-- A word of no row of the opcode map raises `ILLEGAL_CMD`, whatever `KVALID` is (R162; the port is the model's own,
log 4). -/
def Obligations.StepRaisesIllegalCmd : Prop :=
  ∀ (s : State) (w : CommandWord) (rest : List HostEvent),
    s.cfg.wellFormed = true → s.fault = false → s.port = .command w :: rest →
    (∀ r ∈ opcodeMap, w &&& r.mask ≠ r.pattern) →
      step s = .next { s with port := rest, fault := true, cause := 1#2 }

/-- The checks of a presented word in their order: `FAULT`, then legality, then `KVALID` (R50, R165). -/
def Obligations.ChecksAreMadeInOrder : Prop :=
  ∀ (w : CommandWord) (s : State),
    (s.fault = true → runWord w s = .next s) ∧
    (s.fault = false → (∀ r ∈ opcodeMap, w &&& r.mask ≠ r.pattern) →
      runWord w s = .next { s with fault := true, cause := 1#2 }) ∧
    (∀ i, s.fault = false → decodeWord w = .ok i → mnemonicOf i ∈ ["GETSK", "ROUND", "ENC", "DEC"] →
      s.kvalid = false → runWord w s = .next { s with fault := true, cause := 2#2 }) ∧
    (∀ i, s.fault = false → decodeWord w = .ok i →
      (mnemonicOf i ∈ ["GETSK", "ROUND", "ENC", "DEC"] → s.kvalid = true) →
      ∃ t, runWord w s = .next t ∧ exec i s = .next t ∧ t.fault = false)

/-- Once `FAULT = 1` no command, no word and no sequence of words has any effect, and no sequence of the host's
events without a reset in it leads out of the fault (R167). -/
def Obligations.FaultIsTerminal : Prop :=
  ∀ s : State, s.fault = true →
    (∀ i, exec i s = .next s) ∧
    (∀ ws : List CommandWord, applyEvents (ws.map .command) s = .next s) ∧
    (∀ (es : List HostEvent) (t : State), applyEvents es s = .next t → t ≠ s → HostEvent.reset ∈ es) ∧
    (∃ t, applyEvent .reset s = .next t ∧ t.fault = false)

/-- A reset event puts every piece of state at its reset value, in any state, and leaves the tables, the strap
and what the host still has to present (R180, R26; that pending events survive is the model's, log 5). -/
def Obligations.ResetEventRestoresResetValues : Prop :=
  ∀ (s : State) (rest : List HostEvent), s.cfg.wellFormed = true → s.port = .reset :: rest →
    step s = .next
      { key := 0#64, blk := 0#64, sk := Vector.replicate 16 0#48, kvalid := false, fault := false,
        cause := 0#2, cfg := s.cfg, ksSteps := s.ksSteps, port := rest }

/-- The reset values of every register and of `STATUS`, in both settings of the strap, whatever the state before
the reset; the tables and the strap are unchanged by it, and the state the model starts from has the same
values (R26). -/
def Obligations.ResetValues : Prop :=
  (∀ s : State, ∃ t, applyEvent .reset s = .next t ∧
    t.key = 0#64 ∧ t.blk = 0#64 ∧ (∀ i : Fin 16, t.sk[i] = 0#48) ∧ t.kvalid = false ∧ t.fault = false ∧
    t.cause = 0#2 ∧ t.cfg = s.cfg ∧ t.ksSteps = s.ksSteps ∧
    (s.ksSteps.steps = 16 → t.status = 0x00#8) ∧ (s.ksSteps.steps = 15 → t.status = 0x10#8)) ∧
  (State.reset.key = 0#64 ∧ State.reset.blk = 0#64 ∧ (∀ i : Fin 16, State.reset.sk[i] = 0#48) ∧
    State.reset.kvalid = false ∧ State.reset.fault = false ∧ State.reset.cause = 0#2)

/-- An engine to which nothing is presented holds its state indefinitely (R174; an empty port is the
model's form of it, log 4). -/
def Obligations.IdleEngineHoldsItsState : Prop :=
  ∀ (s : State) (n : Nat), s.cfg.wellFormed = true → s.port = [] →
    Host.Core.run Sys2Proof.core n s = .next s

/-- A configuration that fails the check is refused: no engine is built for it and no step is taken with it; a
checked one has an engine for 16 and for 15 steps and for no other number (R164, R8; that a step refuses
it is the model's form, log 3). -/
def Obligations.MalformedConfigurationIsRefused : Prop :=
  (∀ (c : Cfg) (n : Nat), c.wellFormed = false → build c n = none) ∧
  (∀ s : State, s.cfg.wellFormed = false → step s = .refused .malformedConfiguration) ∧
  (∀ c : Cfg, c.wellFormed = true → build c 16 = some (State.resetWith c .sixteen) ∧
    build c 15 = some (State.resetWith c .fifteen) ∧ ∀ n, n ≠ 16 → n ≠ 15 → build c n = none)

/-- Every command completes in every state, every step of an engine does (R187), and so does every run: it ends
in the state after its last command; if that state has `FAULT = 0`, so had every state of the run; and one more
command adds to its result the `BLK` after it exactly when it is a data command that the host reads after (R189;
which commands are data commands and that the host chooses what it reads are the model's reading, log 13). -/
def Obligations.EveryCommandCompletes : Prop :=
  (∀ (i : Instr) (s : State), ∃ t, exec i s = .next t) ∧
  (∀ s : State, s.cfg.wellFormed = true → ∃ t, step s = .next t) ∧
  (∀ (rs : List RunItem) (s : State), ∃ e, runFrom rs s = .next e ∧
    applyEvents (rs.map fun r => .command r.word) s = .next e.final ∧
    (e.good → ∀ n, ∃ e', runFrom (rs.take n) s = .next e' ∧ e'.good) ∧
    ∀ r : RunItem, ∃ t, runWord r.word e.final = .next t ∧
      runFrom (rs ++ [r]) s =
        .next ⟨t, if r.read ∧ isDataWord r.word then e.reads ++ [t.blk] else e.reads⟩)

/-! ## Results, frames and completion, command by command -/

/-- `NOP` changes nothing, in any state (R116). -/
def Obligations.NopChangesNothing : Prop :=
  ∀ s : State, exec .nop s = .next s

/-- `LDKEY imm`: `KEY <- IMM`, `KVALID <- 0`, even when the key is the same; nothing else (R90). -/
def Obligations.LdkeyLoadsKeyAndInvalidatesSubkeys : Prop :=
  ∀ (s : State) (k : Block), s.fault = false →
    exec (.ldkey k) s = .next { s with key := k, kvalid := false }

/-- `LDBLK imm`: `BLK <- IMM`, nothing else, with or without valid subkeys (R113). -/
def Obligations.LdblkLoadsBlock : Prop :=
  ∀ (s : State) (b : Block), s.fault = false → exec (.ldblk b) s = .next { s with blk := b }

/-- `KSGEN`: all sixteen subkeys from the chain of key states, `KVALID <- 1`, nothing else (R91, R87). -/
def Obligations.KsgenDerivesSubkeysFromStateChain : Prop :=
  ∀ s : State, s.fault = false →
    ∃ (st : Nat → KeyState) (sk : SubkeyStore),
      st 0 = permute s.key s.cfg.pc1 ∧
      (∀ i : Fin 16, st (i.val + 1) = rotateHalves (st i.val) s.cfg.shift[i]) ∧
      (∀ i : Fin 16, sk[i] = if i.val < s.ksSteps.steps then permute (st (i.val + 1)) s.cfg.pc2 else 0#48) ∧
      exec .ksgen s = .next { s with sk := sk, kvalid := true }

/-- `GETSK i`: `BLK <- SK[i] ‖ 0^16`, nothing else, when the subkeys are valid (R92). -/
def Obligations.GetskReadsSubkey : Prop :=
  ∀ (s : State) (n : SubkeyIndex), s.fault = false → s.kvalid = true →
    exec (.getsk n) s = .next { s with blk := (s.sk[n] ++ 0#16 : BitVec 64) }

/-- `PERM.IP` and `PERM.IPINV`: the whole block permuted; nothing but `BLK` is written (R66, R67). -/
def Obligations.PermIpAndIpinvPermuteTheBlock : Prop :=
  ∀ s : State, s.fault = false →
    exec .permIp s = .next { s with blk := permute s.blk s.cfg.ip } ∧
    exec .permIpinv s = .next { s with blk := permute s.blk s.cfg.ipinv }

/-- `PERM.E`, `PERM.P`, `PERM.PC1`, `PERM.PC2`: the leading 32, 32, 64, 56 bits permuted, the result left
aligned with zero fill; nothing but `BLK` is written (R68 to R71, R34). -/
def Obligations.ShortPermCommandsLeftAlign : Prop :=
  ∀ s : State, s.fault = false →
    exec .permE s =
      .next { s with blk := (permute (s.blk.extractLsb' 32 32) s.cfg.e ++ 0#16 : BitVec 64) } ∧
    exec .permP s =
      .next { s with blk := (permute (s.blk.extractLsb' 32 32) s.cfg.p ++ 0#32 : BitVec 64) } ∧
    exec .permPc1 s = .next { s with blk := (permute s.blk s.cfg.pc1 ++ 0#8 : BitVec 64) } ∧
    exec .permPc2 s =
      .next { s with blk := (permute (s.blk.extractLsb' 8 56) s.cfg.pc2 ++ 0#16 : BitVec 64) }

/-- The multiplexer may take the whole `BLK` as its input: with a well-formed `CFG` the three tables with a
shorter input select the same bits from it (R68, R69, R71 and the template before R66). -/
def Obligations.MultiplexerInputMayBeTheWholeBlock : Prop :=
  ∀ (c : Cfg) (b : Block), c.wellFormed = true →
    permute b c.e = permute (b.extractLsb' 32 32) c.e ∧
    permute b c.p = permute (b.extractLsb' 32 32) c.p ∧
    permute b c.pc2 = permute (b.extractLsb' 8 56) c.pc2

/-- `SUBST`: nibble `g` is `SBOX[g][row][col]` with `row` from the outer two and `col` from the middle four
bits of group `g` of `BLK{1..48}`; 32 bits left aligned with zero fill; nothing but `BLK` is written (R80,
R76). -/
def Obligations.SubstLooksUpEightGroups : Prop :=
  ∀ s : State, s.fault = false →
    ∃ y : BitVec 32, exec .subst s = .next { s with blk := (y ++ 0#32 : BitVec 64) } ∧
      ∀ (g : Fin 8) (row : Fin 4) (col : Fin 16),
        row.val = 2 * (bitAt s.blk (6 * g.val + 1)).toNat + (bitAt s.blk (6 * g.val + 6)).toNat →
        col.val = 8 * (bitAt s.blk (6 * g.val + 2)).toNat + 4 * (bitAt s.blk (6 * g.val + 3)).toNat +
          2 * (bitAt s.blk (6 * g.val + 4)).toNat + (bitAt s.blk (6 * g.val + 5)).toNat →
        y.extractLsb' (28 - 4 * g.val) 4 = BitVec.ofNat 4 (s.cfg.sbox[g])[row][col]

/-- `ROUND i`: `BLK <- R ‖ (P(S(E(R) XOR SK[i])) XOR NOT(L))`, nothing else, when the subkeys are valid (R104,
R101). -/
def Obligations.RoundMixesTheHalves : Prop :=
  ∀ (s : State) (n : SubkeyIndex) (l r : Half), s.fault = false → s.kvalid = true →
    s.blk = (l ++ r : BitVec 64) →
    exec (.round n) s = .next { s with
      blk := (r ++ (permute (substitute s.cfg (permute r s.cfg.e ^^^ s.sk[n])) s.cfg.p ^^^ ~~~l) :
        BitVec 64) }

/-- `SWAP`: the halves exchanged, nothing else; the exchange is its own inverse, and two `SWAP`s restore the
state (R103, R105). -/
def Obligations.SwapExchangesHalves : Prop :=
  (∀ l r : Half, swapHalves (l ++ r : BitVec 64) = (r ++ l : BitVec 64)) ∧
  (∀ b : Block, swapHalves (swapHalves b) = b) ∧
  (∀ (s : State) (l r : Half), s.fault = false → s.blk = (l ++ r : BitVec 64) →
    exec .swap s = .next { s with blk := (r ++ l : BitVec 64) }) ∧
  (∀ s : State, execAll [.swap, .swap] s = .next s)

/-- `ENC`: `IP`, sixteen rounds with `SK[0]` to `SK[15]`, the swap, `IPINV`; nothing but `BLK` is written
(R114, R110). -/
def Obligations.EncRunsRoundsInNaturalOrder : Prop :=
  ∀ s : State, s.fault = false → s.kvalid = true →
    ∃ x : Nat → Block, x 0 = permute s.blk s.cfg.ip ∧
      (∀ i : Fin 16, x (i.val + 1) = feistelRound s.cfg (x i.val) s.sk[i]) ∧
      exec .enc s = .next { s with blk := permute (swapHalves (x 16)) s.cfg.ipinv }

/-- `DEC`: the same shape with `SK[15 - i]` in round `i`; nothing but `BLK` is written (R115, R111). -/
def Obligations.DecRunsRoundsInReverseOrder : Prop :=
  ∀ s : State, s.fault = false → s.kvalid = true →
    ∃ x : Nat → Block, x 0 = permute s.blk s.cfg.ip ∧
      (∀ i : Fin 16, x (i.val + 1) = feistelRound s.cfg (x i.val) s.sk[i.rev]) ∧
      exec .dec s = .next { s with blk := permute (swapHalves (x 16)) s.cfg.ipinv }

/-- `SUBKEYS_NOT_READY` is raised by `GETSK`, `ROUND`, `ENC` and `DEC` when `KVALID = 0`, and by no other
command and in no other case (R163). -/
def Obligations.SubkeysNotReadyExactlyWhenInvalid : Prop :=
  (∀ (s : State) (n : SubkeyIndex), s.fault = false → s.kvalid = false →
    exec (.getsk n) s = .next { s with fault := true, cause := 2#2 } ∧
    exec (.round n) s = .next { s with fault := true, cause := 2#2 } ∧
    exec .enc s = .next { s with fault := true, cause := 2#2 } ∧
    exec .dec s = .next { s with fault := true, cause := 2#2 }) ∧
  (∀ (i : Instr) (s t : State), s.fault = false → exec i s = .next t → t.fault = true →
    s.kvalid = false ∧ mnemonicOf i ∈ ["GETSK", "ROUND", "ENC", "DEC"] ∧ t.cause = 2#2)

/-- Fault entry is precise: a word that raises a fault writes `FAULT` and `CAUSE` and nothing else (R166). -/
def Obligations.FaultEntryWritesOnlyFaultAndCause : Prop :=
  ∀ (w : CommandWord) (s t : State), s.fault = false → runWord w s = .next t → t.fault = true →
    ∃ c : BitVec 2, (c = 1#2 ∨ c = 2#2) ∧ t = { s with fault := true, cause := c }

/-- The writers of each register: `KEY` by `LDKEY` only, `SK` by `KSGEN` only, `KVALID` by those two only,
`BLK` not by `NOP`, `LDKEY`, `KSGEN`, `FAULT` and `CAUSE` only by the four commands that test `KVALID` (R25);
the tables and the strap by none (R22, R93), nor what the host has presented, a field of the model's own (log 4). -/
def Obligations.RegistersHaveOnlyTheirWriters : Prop :=
  ∀ (i : Instr) (s t : State), exec i s = .next t →
    (mnemonicOf i ≠ "LDKEY" → t.key = s.key) ∧
    (mnemonicOf i ≠ "KSGEN" → t.sk = s.sk) ∧
    (mnemonicOf i ∉ ["LDKEY", "KSGEN"] → t.kvalid = s.kvalid) ∧
    (mnemonicOf i ∈ ["NOP", "LDKEY", "KSGEN"] → t.blk = s.blk) ∧
    (mnemonicOf i ∉ ["GETSK", "ROUND", "ENC", "DEC"] → t.fault = s.fault ∧ t.cause = s.cause) ∧
    t.cfg = s.cfg ∧ t.ksSteps = s.ksSteps ∧ t.port = s.port

/-! ## Whole-machine rules -/

/-- No command, no reset and no other event of the host changes the tables or the strap (R22, R93). -/
def Obligations.ConfigurationIsNeverWritten : Prop :=
  ∀ s t : State, step s = .next t → t.cfg = s.cfg ∧ t.ksSteps = s.ksSteps

/-- The layout of `STATUS` (R19). -/
def Obligations.StatusLayout : Prop :=
  ∀ s : State,
    s.status.getLsbD 0 = s.kvalid ∧ s.status.getLsbD 1 = s.fault ∧ s.status.extractLsb' 2 2 = s.cause ∧
    (s.status.getLsbD 4 = true ↔ s.ksSteps.steps = 15) ∧ s.status.extractLsb' 5 3 = 0#3

/-- An invariant every step keeps: `CAUSE` is 0 exactly when `FAULT` is 0, and 3 never occurs (R18, R161). -/
def Obligations.FaultConsistencyIsInvariant : Prop :=
  ∀ s t : State, s.faultConsistent → step s = .next t → t.faultConsistent

/-- An invariant every step keeps: while `KVALID = 1`, `SK` holds the subkeys generated from the current `KEY`
(R13, R16). -/
def Obligations.ValidSubkeysMatchKeyIsInvariant : Prop :=
  ∀ s t : State, s.subkeysCurrent → step s = .next t → t.subkeysCurrent

/-- Both invariants hold after reset (R26). -/
def Obligations.InvariantsHoldAtReset : Prop :=
  ∀ (c : Cfg) (k : KsSteps), (State.resetWith c k).faultConsistent ∧ (State.resetWith c k).subkeysCurrent

/-- `KEY` is read only by `KSGEN`: any other command does the same to two states that differ in `KEY` alone, up
to `KEY` itself (R14). -/
def Obligations.KeyIsReadOnlyByKsgen : Prop :=
  ∀ (i : Instr) (s : State) (k : Block), i ≠ .ksgen →
    ∃ (t : State) (k' : Block), exec i s = .next t ∧ exec i { s with key := k } = .next { t with key := k' }

/-- With `KVALID = 0` the old subkeys are unobservable from now on: whatever the host does next, what it sees
does not depend on them (R90). -/
def Obligations.StaleSubkeysAreUnobservable : Prop :=
  ∀ (es : List HostEvent) (s : State) (sk : SubkeyStore), s.kvalid = false →
    ∃ t t' : State, applyEvents es s = .next t ∧ applyEvents es { s with sk := sk } = .next t' ∧
      t.hostView = t'.hostView

/-- A command with an n-bit input ignores `BLK{n+1..64}`: blocks that agree on the leading bits give the same
next state (R34, R185). -/
def Obligations.ShortInputsIgnoreTheRestOfBlk : Prop :=
  ∀ (s : State) (b : Block), s.fault = false →
    (b.extractLsb' 32 32 = s.blk.extractLsb' 32 32 → exec .permE { s with blk := b } = exec .permE s) ∧
    (b.extractLsb' 32 32 = s.blk.extractLsb' 32 32 → exec .permP { s with blk := b } = exec .permP s) ∧
    (b.extractLsb' 16 48 = s.blk.extractLsb' 16 48 → exec .subst { s with blk := b } = exec .subst s) ∧
    (b.extractLsb' 8 56 = s.blk.extractLsb' 8 56 → exec .permPc2 { s with blk := b } = exec .permPc2 s)

/-! ## The units -/

/-- Bytes of a value of 8, 7, 6, 4 or any other number `n` of bytes: position `p` is bit `7 - ((p-1) mod 8)` of
byte `(p-1) div 8`; read as one number, byte 0 weighs most; and a block's bytes give the block back (R31). -/
def Obligations.ByteZeroIsMostSignificant : Prop :=
  (∀ (n : Nat) (v : BitVec (8 * n)),
    (toBytes n v).length = n ∧
    (∀ p, 1 ≤ p → p ≤ 8 * n →
      ∃ y, (toBytes n v)[(p - 1) / 8]? = some y ∧ bitAt v p = y.getLsbD (7 - (p - 1) % 8)) ∧
    (toBytes n v).foldl (fun k y => k * 256 + y.toNat) 0 = v.toNat) ∧
  (∀ b : Block, bytesOfBlock b = toBytes 8 b ∧ blockOfBytes (bytesOfBlock b) = b)

/-- `permute`: output bit `i` (zero-based) is input bit `T[i] - 1`, for a table that fits its input (R61, R62). -/
def Obligations.PermuteSelectsTableBits : Prop :=
  ∀ (n m : Nat) (v : BitVec n) (t : Vector Nat m), (∀ (i : Nat) (_ : i < m), 1 ≤ t[i] ∧ t[i] ≤ n) →
    ∀ (i : Nat) (_ : i < m), (permute v t).getMsbD i = v.getMsbD (t[i] - 1)

/-- The laws of `permute`: constants, exclusive-or, complement, and `IPINV` undoing `IP` (R72). -/
def Obligations.PermuteLaws : Prop :=
  (∀ (n m : Nat) (t : Vector Nat m), (∀ (i : Nat) (_ : i < m), 1 ≤ t[i] ∧ t[i] ≤ n) →
    permute (0#n) t = 0#m ∧ permute (BitVec.allOnes n) t = BitVec.allOnes m ∧
    (∀ a b : BitVec n, permute (a ^^^ b) t = permute a t ^^^ permute b t) ∧
    (∀ a : BitVec n, permute (~~~a) t = ~~~(permute a t))) ∧
  (∀ (c : Cfg) (x : Block), c.wellFormed = true →
    permute (permute x c.ip) c.ipinv = x ∧ permute (permute x c.ipinv) c.ip = x)

/-- `rotl28`: the formula of R85, and its equivalent form `h{s'+1..28} ‖ h{1..s'}` with `s' = s mod 28`, said
position by position and as the library's rotation left by `s'` (R85). -/
def Obligations.RotationIsLeftCircular : Prop :=
  ∀ (h : BitVec 28) (s : Nat),
    (∀ p, 1 ≤ p → p ≤ 28 → bitAt (rotl28 h s) p = bitAt h ((p - 1 + s) % 28 + 1)) ∧
    (∀ p, 1 ≤ p → p ≤ 28 - s % 28 → bitAt (rotl28 h s) p = bitAt h (s % 28 + p)) ∧
    (∀ p, 28 - s % 28 < p → p ≤ 28 → bitAt (rotl28 h s) p = bitAt h (p - (28 - s % 28))) ∧
    rotl28 h s = h.rotateLeft (s % 28) ∧ rotl28 h 0 = h

/-- `RotateHalves`: each half rotated on its own, no bit crosses the half boundary; the spec's example (R86). -/
def Obligations.HalvesRotateIndependently : Prop :=
  (∀ (l r : BitVec 28) (s : Nat),
    rotateHalves (l ++ r : BitVec 56) s = (l.rotateLeft (s % 28) ++ r.rotateLeft (s % 28) : BitVec 56)) ∧
  rotateHalves 0x80000010000001#56 1 = 0x00000030000002#56

/-- The subkeys of the all-zero and the all-ones key and of a complemented key; the key state returns to where
it started when the entries of `CFG.SHIFT` sum to 28 (R94 (a), (c), (d)). -/
def Obligations.KeyScheduleProperties : Prop :=
  (∀ (c : Cfg) (key : Block), c.shift.toList.sum = 28 → keyState c key 16 = keyState c key 0) ∧
  ∀ (c : Cfg) (k : KsSteps) (i : Fin 16), c.wellFormed = true →
    (generateSubkeys c k 0#64)[i] = 0#48 ∧
    (i.val < k.steps → (generateSubkeys c k (BitVec.allOnes 64))[i] = BitVec.allOnes 48) ∧
    (i.val < k.steps → ∀ key : Block,
      (generateSubkeys c k (~~~key))[i] = ~~~((generateSubkeys c k key)[i]))

/-- With the default `PC1` the key positions 8, 16, ..., 64 influence no subkey (R94 (e); it rests on the
default tables, log 2). -/
def Obligations.DefaultParityPositionsAreIgnored : Prop :=
  ∀ (k : KsSteps) (key key' : Block),
    (∀ p, 1 ≤ p → p ≤ 64 → p % 8 ≠ 0 → bitAt key p = bitAt key' p) →
    generateSubkeys Cfg.default k key = generateSubkeys Cfg.default k key'

/-- Compat mode gives the same `SK[0..14]` for every key, and `SK[15] = 0^48` (R93). -/
def Obligations.CompatModeDiffersOnlyInSubkey15 : Prop :=
  ∀ (c : Cfg) (key : Block),
    (∀ i : Fin 16, i.val < 15 →
      (generateSubkeys c .fifteen key)[i] = (generateSubkeys c .sixteen key)[i]) ∧
    (generateSubkeys c .fifteen key)[15] = 0#48

/-- The round, and the complement of the left half in it in both of its forms (R101, R102). -/
def Obligations.RoundComplementsLeftHalf : Prop :=
  ∀ (c : Cfg) (l r : Half) (k : Subkey),
    feistelRound c (l ++ r : BitVec 64) k =
      (r ++ (permute (substitute c (permute r c.e ^^^ k)) c.p ^^^ ~~~l) : BitVec 64) ∧
    feistelRound c (l ++ r : BitVec 64) k =
      (r ++ ~~~(permute (substitute c (permute r c.e ^^^ k)) c.p ^^^ l) : BitVec 64)

/-- Swap, round, swap with the same subkey undoes a round, for any tables (R106). -/
def Obligations.RoundUndoneBySwapRoundSwap : Prop :=
  ∀ (c : Cfg) (b : Block) (k : Subkey),
    swapHalves (feistelRound c (swapHalves (feistelRound c b k)) k) = b

/-! ## Headlines -/

/-- Round trip: for every well-formed `CFG`, every subkey store and every block, decryption undoes encryption
and encryption undoes decryption (R117). -/
def Obligations.DecryptionInvertsEncryption : Prop :=
  ∀ (c : Cfg) (sk : SubkeyStore) (b : Block), c.wellFormed = true →
    decryptBlock c sk (encryptBlock c sk b) = b ∧ encryptBlock c sk (decryptBlock c sk b) = b

/-- On the engine: `ENC` then `DEC`, or `DEC` then `ENC`, restores the whole state (R115, R117). -/
def Obligations.EncThenDecRestoresTheState : Prop :=
  ∀ s : State, s.cfg.wellFormed = true → s.fault = false → s.kvalid = true →
    execAll [.enc, .dec] s = .next s ∧ execAll [.dec, .enc] s = .next s

/-- Decomposition: `ENC` and `DEC` have the effect of their sequences of unit commands; with `KVALID = 0` both
end with `SUBKEYS_NOT_READY`, the sequence with `BLK` already permuted (R119). -/
def Obligations.EncAndDecDecomposeIntoUnits : Prop :=
  ∀ s : State, s.fault = false →
    (s.kvalid = true →
      execAll [.permIp, .round 0, .round 1, .round 2, .round 3, .round 4, .round 5, .round 6, .round 7,
        .round 8, .round 9, .round 10, .round 11, .round 12, .round 13, .round 14, .round 15, .swap,
        .permIpinv] s = exec .enc s ∧
      execAll [.permIp, .round 15, .round 14, .round 13, .round 12, .round 11, .round 10, .round 9, .round 8,
        .round 7, .round 6, .round 5, .round 4, .round 3, .round 2, .round 1, .round 0, .swap,
        .permIpinv] s = exec .dec s) ∧
    (s.kvalid = false →
      exec .enc s = .next { s with fault := true, cause := 2#2 } ∧
      exec .dec s = .next { s with fault := true, cause := 2#2 } ∧
      execAll [.permIp, .round 0, .round 1, .round 2, .round 3, .round 4, .round 5, .round 6, .round 7,
        .round 8, .round 9, .round 10, .round 11, .round 12, .round 13, .round 14, .round 15, .swap,
        .permIpinv] s = .next { s with blk := permute s.blk s.cfg.ip, fault := true, cause := 2#2 } ∧
      execAll [.permIp, .round 15, .round 14, .round 13, .round 12, .round 11, .round 10, .round 9, .round 8,
        .round 7, .round 6, .round 5, .round 4, .round 3, .round 2, .round 1, .round 0, .swap,
        .permIpinv] s = .next { s with blk := permute s.blk s.cfg.ip, fault := true, cause := 2#2 })

/-- Complementation: with all sixteen subkeys derived, `ENC` under the complemented key of the complemented
block gives the complement (95_test_vectors.md V47, from R72 (b) and R94 (c)). -/
def Obligations.ComplementedKeyAndBlockComplementCiphertext : Prop :=
  ∀ (c : Cfg) (key b : Block), c.wellFormed = true →
    encryptBlock c (generateSubkeys c .sixteen (~~~key)) (~~~b) =
      ~~~(encryptBlock c (generateSubkeys c .sixteen key) b)

/-! ## The host's side -/

/-- A text of 8 ASCII characters is accepted as a key and nothing else is; character `j` is byte `j`; the
eight bytes of a data block are its bytes 0 to 7 in order; the spec's examples of a key and of a block (R33).
That a text of 8 characters with one outside ASCII is rejected is the model's choice (log 11). -/
def Obligations.TextKeysAreEightAsciiCharacters : Prop :=
  (∀ cs : List Char,
    (cs.length = 8 ∧ (∀ ch ∈ cs, ch.toNat < 128) → ∃ k, hostKey cs = .ok k ∧
      ∀ (j : Nat) (_ : j < cs.length), (bytesOfBlock k)[j]? = some (BitVec.ofNat 8 cs[j].toNat)) ∧
    (¬(cs.length = 8 ∧ ∀ ch ∈ cs, ch.toNat < 128) → hostKey cs = .error .keyRejected)) ∧
  hostKey ['1', '2', '3', '4', '5', '6', '7', '8'] = .ok 0x3132333435363738#64 ∧
  (∀ bs : List Byte, bs.length = 8 → bytesOfBlock (blockOfBytes bs) = bs) ∧
  blockOfBytes (rawBytes ['A', 'B', 'C', 'D', 'E', 'F', 'G', 'H']) = 0x4142434445464748#64

/-- Encryption padding: the blocks hold the input bytes, then spaces up to a whole block and no extra block; the
spec's example, and no block for an empty input (R126). -/
def Obligations.PaddingFillsTheLastBlockWithSpaces : Prop :=
  (∀ bs : List Byte,
    bytesOfBlocks (padBlocks bs) = bs ++ List.replicate ((8 - bs.length % 8) % 8) 0x20#8 ∧
    (padBlocks bs).length = (bs.length + 7) / 8) ∧
  padBlocks [] = [] ∧ padBlocks (rawBytes ['A', 'B', 'C']) = [0x4142432020202020#64]

/-- Decryption input: whole blocks are taken as they are, a trailing chunk that is not 0 or 8 bytes is a
FormatError (R128, R129). -/
def Obligations.PartialDecryptionChunkIsRejected : Prop :=
  ∀ bs : List Byte,
    (bs.length % 8 = 0 → ∃ l, wholeBlocks bs = .ok l ∧ bytesOfBlocks l = bs) ∧
    (bs.length % 8 ≠ 0 → wholeBlocks bs = .error .formatError)

/-- Bit text: eight characters a byte, most significant bit first, read back unchanged; any character other
than `0` and `1` is a format error; the source's three examples (R132). -/
def Obligations.BitTextFraming : Prop :=
  (∀ (b : Byte) (j : Nat), j < 8 →
    (bitTextOfByte b)[j]? = some (if b.getLsbD (7 - j) then '1' else '0')) ∧
  (∀ bs : List Byte, (toBitText bs).length = 8 * bs.length ∧ ofBitText (toBitText bs) = .ok bs) ∧
  (∀ cs : List Char, (∃ ch ∈ cs, ch ≠ '0' ∧ ch ≠ '1') → ofBitText cs = .error .formatError) ∧
  toBitText [0xA5#8] = ['1', '0', '1', '0', '0', '1', '0', '1'] ∧
  ofBitText ['1', '0', '1', '0', '0', '1', '0', '1'] = .ok [0xA5#8] ∧
  ofBitText ['1', '0', '2', '0', '0', '0', '0', 'X'] = .error .formatError

/-- A whole run: for any accepted key, any input and either framing, on freshly reset engines of one
configuration, decrypting what was encrypted gives the input with its padding (R117, R126, R127, R137). -/
def Obligations.DecryptedStreamIsThePaddedInput : Prop :=
  ∀ (c : Cfg) (k : KsSteps) (f : Framing) (key : List Char) (input : List Byte),
    c.wellFormed = true → isText8 key = true →
    ∃ ct, encryptStream f key input (State.resetWith c k) = .ok ct ∧
      decryptStream f key ct (State.resetWith c k) =
        .ok (input ++ List.replicate ((8 - input.length % 8) % 8) 0x20#8)

/-- The five pseudo-commands and their expansions (R54); that `PERM t` with `t` above 5 expands to nothing is the
model's choice (log 12). -/
def Obligations.PseudoCommandExpansions : Prop :=
  (∀ imm : ImmOperand, imm.wellFormed = true →
    (Line.setkey imm).expand = some [.ldkey imm.value, .ksgen] ∧
    (Line.encblk imm).expand = some [.ldblk imm.value, .enc] ∧
    (Line.decblk imm).expand = some [.ldblk imm.value, .dec]) ∧
  (List.range 6).map (fun t => (Line.perm t).expand) =
    [some [.permIp], some [.permIpinv], some [.permE], some [.permP], some [.permPc1], some [.permPc2]] ∧
  (∀ t, 6 ≤ t → (Line.perm t).expand = none) ∧
  (∀ i : Fin 16, (Line.dround i.val).expand = some [.round i.rev])
end

