-- ==== Sys2Proof/Laws/Bits.lean ====
section
/-! SUPPORT. What the bit-string helpers do, bit by bit, in the library's `getMsbD` (position `p` is index
`p - 1`). -/

namespace Sys2Proof.Machine

/-- A string given by its positions: bit `i` from the most significant end is `f (i + 1)`. -/
theorem getMsbD_ofPositions (n : Nat) (f : Nat → Bool) (i : Nat) :
    (ofPositions n f).getMsbD i = (decide (i < n) && f (i + 1)) := by
  induction n with
  | zero => simp [ofPositions]
  | succ n ih =>
    rw [ofPositions, BitVec.getMsbD_concat]
    rcases Nat.lt_trichotomy i n with h | h | h
    · simp [h, ih, Nat.lt_succ_of_lt h]
    · subst h; simp
    · have h1 : ¬ i < n := by omega
      have h2 : ¬ i < n + 1 := by omega
      have h3 : ¬ i = n := by omega
      simp [h1, h2, h3]

/-- Position 0 is outside every string: it reads as 0 (log 7). -/
@[simp] theorem bitAt_zero {n : Nat} (v : BitVec n) : bitAt v 0 = false := rfl

/-- Position `i + 1` is bit `i` from the most significant end. -/
@[simp] theorem bitAt_succ {n : Nat} (v : BitVec n) (i : Nat) : bitAt v (i + 1) = v.getMsbD i := rfl

/-- Position `p`, from 1 on, is bit `p - 1` from the most significant end. -/
theorem bitAt_of_pos {n p : Nat} (v : BitVec n) (h : 1 ≤ p) : bitAt v p = v.getMsbD (p - 1) := by
  obtain ⟨i, rfl⟩ := Nat.exists_eq_add_of_le' h
  rfl

/-- A position beyond a string's length reads as 0 (log 7). -/
theorem bitAt_of_length_lt {n p : Nat} (v : BitVec n) (h : n < p) : bitAt v p = false := by
  rw [bitAt_of_pos v (by omega), BitVec.getMsbD_eq_getLsbD]
  simp [show ¬ p - 1 < n by omega]

/-- Every position of the all-zero string is 0. -/
@[simp] theorem bitAt_zeros (n p : Nat) : bitAt (0#n) p = false := by
  cases p <;> simp

/-- Position `p` of a string given by its positions. -/
theorem bitAt_ofPositions {n p : Nat} (f : Nat → Bool) (h1 : 1 ≤ p) (h2 : p ≤ n) :
    bitAt (ofPositions n f) p = f p := by
  rw [bitAt_of_pos _ h1, getMsbD_ofPositions, Nat.sub_add_cancel h1]
  simp [show p - 1 < n by omega]

/-- Two strings with the same bit at every position are equal. -/
theorem eq_of_bitAt_eq {n : Nat} {x y : BitVec n} (h : ∀ p, 1 ≤ p → p ≤ n → bitAt x p = bitAt y p) :
    x = y := by
  apply BitVec.eq_of_getMsbD_eq
  intro i hi
  simpa using h (i + 1) (by omega) (by omega)

/-- A run of positions keeps their order: position `q` of it is position `p + q - 1` of the string. -/
theorem bitAt_substr {n : Nat} (v : BitVec n) {p len q : Nat} (hp : 1 ≤ p) (hq : 1 ≤ q) (hql : q ≤ len)
    (hn : p + len - 1 ≤ n) : bitAt (substr v p len) q = bitAt v (p + q - 1) := by
  rw [bitAt_of_pos _ hq, bitAt_of_pos _ (by omega), substr]
  rw [BitVec.getMsbD_eq_getLsbD, BitVec.getMsbD_eq_getLsbD, BitVec.getLsbD_extractLsb']
  simp only [show q - 1 < len by omega, show p + q - 1 - 1 < n by omega,
    show len - 1 - (q - 1) < len by omega, decide_true, Bool.true_and]
  congr 1
  omega

/-- `pad64` of a full block is the block. -/
@[simp] theorem pad64_block (v : Block) : pad64 v = v := by simp [pad64]

/-- `pad64` appends zeros (R34): for 56 bits. -/
theorem pad64_56 (v : BitVec 56) : pad64 v = (v ++ 0#8 : BitVec 64) := by
  apply BitVec.eq_of_getLsbD_eq; intro i hi
  simp only [pad64, BitVec.getLsbD_shiftLeft, BitVec.getLsbD_setWidth, BitVec.getLsbD_append]
  by_cases h : i < 8 <;> simp [h, hi]
  · omega

/-- `pad64` appends zeros (R34): for 48 bits. -/
theorem pad64_48 (v : BitVec 48) : pad64 v = (v ++ 0#16 : BitVec 64) := by
  apply BitVec.eq_of_getLsbD_eq; intro i hi
  simp only [pad64, BitVec.getLsbD_shiftLeft, BitVec.getLsbD_setWidth, BitVec.getLsbD_append]
  by_cases h : i < 16 <;> simp [h, hi]
  · omega

/-- `pad64` appends zeros (R34): for 32 bits. -/
theorem pad64_32 (v : BitVec 32) : pad64 v = (v ++ 0#32 : BitVec 64) := by
  apply BitVec.eq_of_getLsbD_eq; intro i hi
  simp only [pad64, BitVec.getLsbD_shiftLeft, BitVec.getLsbD_setWidth, BitVec.getLsbD_append]
  by_cases h : i < 32 <;> simp [h, hi]
  · omega

/-- The whole block as a run of positions. -/
@[simp] theorem substr_block (v : Block) : substr v 1 64 = v := by
  simp [substr]

/-- The left half of joined halves (R100). -/
@[simp] theorem leftHalf_joinHalves (l r : Half) : leftHalf (joinHalves l r) = l := by
  apply BitVec.eq_of_getLsbD_eq; intro i hi
  simp only [leftHalf, joinHalves, substr, BitVec.getLsbD_extractLsb', BitVec.getLsbD_append]
  simp [show ¬ (32 + i < 32) by omega, hi]

/-- The right half of joined halves (R100). -/
@[simp] theorem rightHalf_joinHalves (l r : Half) : rightHalf (joinHalves l r) = r := by
  apply BitVec.eq_of_getLsbD_eq; intro i hi
  simp only [rightHalf, joinHalves, substr, BitVec.getLsbD_extractLsb', BitVec.getLsbD_append]
  simp [hi]

/-- A block is its two halves (R100). -/
@[simp] theorem joinHalves_halves (b : Block) : joinHalves (leftHalf b) (rightHalf b) = b := by
  apply BitVec.eq_of_getLsbD_eq; intro i hi
  simp only [leftHalf, rightHalf, joinHalves, substr, BitVec.getLsbD_append, BitVec.getLsbD_extractLsb']
  by_cases h : i < 32
  · simp [h]
  · simp [h, show i - 32 < 32 by omega, show 32 + (i - 32) = i by omega]

/-- The byte form has as many bytes as asked for. -/
@[simp] theorem length_toBytes (k : Nat) (v : BitVec (8 * k)) : (toBytes k v).length = k := by
  induction k with
  | zero => rfl
  | succ k ih => simp [toBytes, ih]

end Sys2Proof.Machine
end

