-- ==== Sys2Proof/Laws/Decode.lean ====
section
/-! SUPPORT. The fields of a command word and the bytes of a value, once: what proofs about the decoder and the
byte forms cite. -/

namespace Sys2Proof.Machine

/-- The `OP` field of a word put together from its fields. -/
@[simp] theorem opField_commandWord (op : Byte) (imm : Block) : opField (commandWord op imm) = op := by
  apply BitVec.eq_of_getLsbD_eq; intro i hi
  simp only [opField, commandWord, BitVec.getLsbD_extractLsb', BitVec.getLsbD_append]
  simp [show ¬ (64 + i < 64) by omega, hi]

/-- The `IMM` field of a word put together from its fields. -/
@[simp] theorem immField_commandWord (op : Byte) (imm : Block) : immField (commandWord op imm) = imm := by
  apply BitVec.eq_of_getLsbD_eq; intro i hi
  simp only [immField, commandWord, BitVec.getLsbD_extractLsb', BitVec.getLsbD_append]
  simp [hi]

/-- A word is put together from its own fields: no bit is outside them (R45). -/
@[simp] theorem commandWord_fields (w : CommandWord) : commandWord (opField w) (immField w) = w := by
  apply BitVec.eq_of_getLsbD_eq; intro i hi
  simp only [immField, opField, commandWord, BitVec.getLsbD_extractLsb', BitVec.getLsbD_append]
  by_cases h : i < 64
  · simp [h]
  · simp [h, show i - 64 < 8 by omega, show 64 + (i - 64) = i by omega]

/-- All that decoding a word can do (R50). -/
theorem decodeWord_cases (w : CommandWord) :
    (opField w = 0x10#8 ∧ decodeWord w = .ok (.ldkey (immField w))) ∨
    (opField w = 0x11#8 ∧ decodeWord w = .ok (.ldblk (immField w))) ∨
    (∃ i, decodeOpcode (opField w) = some i ∧ immField w = 0#64 ∧ decodeWord w = .ok i) ∨
    (∃ r, decodeWord w = .error r) := by
  unfold decodeWord
  split
  · exact .inl ⟨by assumption, rfl⟩
  · split
    · exact .inr (.inl ⟨by assumption, rfl⟩)
    · split
      · exact .inr (.inr (.inr ⟨_, rfl⟩))
      · split
        · exact .inr (.inr (.inl ⟨_, by assumption, by assumption, rfl⟩))
        · exact .inr (.inr (.inr ⟨_, rfl⟩))

/-- The number of two runs of bytes, one after the other. -/
theorem numOfBytes_append (as bs : List Byte) :
    numOfBytes (as ++ bs) = numOfBytes as * 256 ^ bs.length + numOfBytes bs := by
  induction bs using List.reverseRecOn with
  | nil => simp [numOfBytes]
  | append_singleton bs b ih =>
    rw [← List.append_assoc]
    unfold numOfBytes at *
    rw [List.foldl_append, ih, List.foldl_append]
    simp only [List.foldl_cons, List.foldl_nil, List.length_append, List.length_singleton, pow_succ]; ring

end Sys2Proof.Machine
end

