-- ==== Sys2Proof/Laws/HostStream.lean ====
section
/-! SUPPORT. The host's block loops, eight bytes at a time: one equation each for a whole block, and the induction
that goes with them. -/

namespace Sys2Proof.Machine

/-- Eight bytes in front of an encryption input are one block in front of its blocks (R125). -/
theorem padBlocks_append {a : List Byte} (rest : List Byte) (h : a.length = 8) :
    padBlocks (a ++ rest) = blockOfBytes a :: padBlocks rest := by
  match a, h with
  | [b0, b1, b2, b3, b4, b5, b6, b7], _ => simp [padBlocks]

/-- Eight bytes in front of a decryption input are one block in front of its blocks (R128). -/
theorem wholeBlocks_append {a : List Byte} (rest : List Byte) (h : a.length = 8) :
    wholeBlocks (a ++ rest) =
      match wholeBlocks rest with
      | .ok bs => .ok (blockOfBytes a :: bs)
      | .error e => .error e := by
  match a, h with
  | [b0, b1, b2, b3, b4, b5, b6, b7], _ => rfl

/-- Induction along a list eight elements at a time, with a shorter rest. -/
theorem induction_by_eight {α : Type} {P : List α → Prop} (nil : P [])
    (short : ∀ a : List α, a ≠ [] → a.length < 8 → P a)
    (block : ∀ a rest : List α, a.length = 8 → P rest → P (a ++ rest)) : ∀ l, P l := by
  intro l
  induction hn : l.length using Nat.strong_induction_on generalizing l with
  | _ n ih =>
    by_cases h : l = []
    · subst h; exact nil
    · by_cases h2 : l.length < 8
      · exact short l h h2
      · rw [← List.take_append_drop 8 l]
        exact block _ _ (by simp; omega) (ih (l.drop 8).length (by simp; omega) _ rfl)

/-- What the host gets when it presents a command that completes with a state in which `FAULT = 0`. -/
theorem presentCommand_of_next {i : Instr} {s t : State} (h : runWord (encode i) s = .next t)
    (hf : t.status.getLsbD 1 = false) : presentCommand i s = .ok t := by
  simp only [presentCommand, h, hf, Bool.false_eq_true, if_false]

end Sys2Proof.Machine
end

