-- ==== Sys2Proof/Laws/State.lean ====
section
/-! SUPPORT. One lemma per field per register update, each true by rfl, so that no later proof unfolds an
update of the state. -/

namespace Sys2Proof.Machine

section Updates

variable (s : State)

@[simp] theorem setBlk_key (v : Block) : (s.setBlk v).key = s.key := rfl
@[simp] theorem setBlk_blk (v : Block) : (s.setBlk v).blk = v := rfl
@[simp] theorem setBlk_sk (v : Block) : (s.setBlk v).sk = s.sk := rfl
@[simp] theorem setBlk_kvalid (v : Block) : (s.setBlk v).kvalid = s.kvalid := rfl
@[simp] theorem setBlk_fault (v : Block) : (s.setBlk v).fault = s.fault := rfl
@[simp] theorem setBlk_cause (v : Block) : (s.setBlk v).cause = s.cause := rfl
@[simp] theorem setBlk_cfg (v : Block) : (s.setBlk v).cfg = s.cfg := rfl
@[simp] theorem setBlk_ksSteps (v : Block) : (s.setBlk v).ksSteps = s.ksSteps := rfl
@[simp] theorem setBlk_port (v : Block) : (s.setBlk v).port = s.port := rfl

@[simp] theorem setBlkTop_key {n : Nat} (v : BitVec n) : (s.setBlkTop v).key = s.key := rfl
@[simp] theorem setBlkTop_blk {n : Nat} (v : BitVec n) : (s.setBlkTop v).blk = pad64 v := rfl
@[simp] theorem setBlkTop_sk {n : Nat} (v : BitVec n) : (s.setBlkTop v).sk = s.sk := rfl
@[simp] theorem setBlkTop_kvalid {n : Nat} (v : BitVec n) : (s.setBlkTop v).kvalid = s.kvalid := rfl
@[simp] theorem setBlkTop_fault {n : Nat} (v : BitVec n) : (s.setBlkTop v).fault = s.fault := rfl
@[simp] theorem setBlkTop_cause {n : Nat} (v : BitVec n) : (s.setBlkTop v).cause = s.cause := rfl
@[simp] theorem setBlkTop_cfg {n : Nat} (v : BitVec n) : (s.setBlkTop v).cfg = s.cfg := rfl
@[simp] theorem setBlkTop_ksSteps {n : Nat} (v : BitVec n) : (s.setBlkTop v).ksSteps = s.ksSteps := rfl
@[simp] theorem setBlkTop_port {n : Nat} (v : BitVec n) : (s.setBlkTop v).port = s.port := rfl

@[simp] theorem setKey_key (v : Block) : (s.setKey v).key = v := rfl
@[simp] theorem setKey_blk (v : Block) : (s.setKey v).blk = s.blk := rfl
@[simp] theorem setKey_sk (v : Block) : (s.setKey v).sk = s.sk := rfl
@[simp] theorem setKey_kvalid (v : Block) : (s.setKey v).kvalid = s.kvalid := rfl
@[simp] theorem setKey_fault (v : Block) : (s.setKey v).fault = s.fault := rfl
@[simp] theorem setKey_cause (v : Block) : (s.setKey v).cause = s.cause := rfl
@[simp] theorem setKey_cfg (v : Block) : (s.setKey v).cfg = s.cfg := rfl
@[simp] theorem setKey_ksSteps (v : Block) : (s.setKey v).ksSteps = s.ksSteps := rfl
@[simp] theorem setKey_port (v : Block) : (s.setKey v).port = s.port := rfl

@[simp] theorem setSk_key (v : SubkeyStore) : (s.setSk v).key = s.key := rfl
@[simp] theorem setSk_blk (v : SubkeyStore) : (s.setSk v).blk = s.blk := rfl
@[simp] theorem setSk_sk (v : SubkeyStore) : (s.setSk v).sk = v := rfl
@[simp] theorem setSk_kvalid (v : SubkeyStore) : (s.setSk v).kvalid = s.kvalid := rfl
@[simp] theorem setSk_fault (v : SubkeyStore) : (s.setSk v).fault = s.fault := rfl
@[simp] theorem setSk_cause (v : SubkeyStore) : (s.setSk v).cause = s.cause := rfl
@[simp] theorem setSk_cfg (v : SubkeyStore) : (s.setSk v).cfg = s.cfg := rfl
@[simp] theorem setSk_ksSteps (v : SubkeyStore) : (s.setSk v).ksSteps = s.ksSteps := rfl
@[simp] theorem setSk_port (v : SubkeyStore) : (s.setSk v).port = s.port := rfl

@[simp] theorem setKvalid_key : (s.setKvalid).key = s.key := rfl
@[simp] theorem setKvalid_blk : (s.setKvalid).blk = s.blk := rfl
@[simp] theorem setKvalid_sk : (s.setKvalid).sk = s.sk := rfl
@[simp] theorem setKvalid_kvalid : (s.setKvalid).kvalid = true := rfl
@[simp] theorem setKvalid_fault : (s.setKvalid).fault = s.fault := rfl
@[simp] theorem setKvalid_cause : (s.setKvalid).cause = s.cause := rfl
@[simp] theorem setKvalid_cfg : (s.setKvalid).cfg = s.cfg := rfl
@[simp] theorem setKvalid_ksSteps : (s.setKvalid).ksSteps = s.ksSteps := rfl
@[simp] theorem setKvalid_port : (s.setKvalid).port = s.port := rfl

@[simp] theorem clearKvalid_key : (s.clearKvalid).key = s.key := rfl
@[simp] theorem clearKvalid_blk : (s.clearKvalid).blk = s.blk := rfl
@[simp] theorem clearKvalid_sk : (s.clearKvalid).sk = s.sk := rfl
@[simp] theorem clearKvalid_kvalid : (s.clearKvalid).kvalid = false := rfl
@[simp] theorem clearKvalid_fault : (s.clearKvalid).fault = s.fault := rfl
@[simp] theorem clearKvalid_cause : (s.clearKvalid).cause = s.cause := rfl
@[simp] theorem clearKvalid_cfg : (s.clearKvalid).cfg = s.cfg := rfl
@[simp] theorem clearKvalid_ksSteps : (s.clearKvalid).ksSteps = s.ksSteps := rfl
@[simp] theorem clearKvalid_port : (s.clearKvalid).port = s.port := rfl

@[simp] theorem raiseFault_key (c : FaultCause) : (s.raiseFault c).key = s.key := rfl
@[simp] theorem raiseFault_blk (c : FaultCause) : (s.raiseFault c).blk = s.blk := rfl
@[simp] theorem raiseFault_sk (c : FaultCause) : (s.raiseFault c).sk = s.sk := rfl
@[simp] theorem raiseFault_kvalid (c : FaultCause) : (s.raiseFault c).kvalid = s.kvalid := rfl
@[simp] theorem raiseFault_fault (c : FaultCause) : (s.raiseFault c).fault = true := rfl
@[simp] theorem raiseFault_cause (c : FaultCause) : (s.raiseFault c).cause = c.code := rfl
@[simp] theorem raiseFault_cfg (c : FaultCause) : (s.raiseFault c).cfg = s.cfg := rfl
@[simp] theorem raiseFault_ksSteps (c : FaultCause) : (s.raiseFault c).ksSteps = s.ksSteps := rfl
@[simp] theorem raiseFault_port (c : FaultCause) : (s.raiseFault c).port = s.port := rfl

@[simp] theorem applyReset_key : (s.applyReset).key = 0#64 := rfl
@[simp] theorem applyReset_blk : (s.applyReset).blk = 0#64 := rfl
@[simp] theorem applyReset_sk : (s.applyReset).sk = Vector.replicate 16 0#48 := rfl
@[simp] theorem applyReset_kvalid : (s.applyReset).kvalid = false := rfl
@[simp] theorem applyReset_fault : (s.applyReset).fault = false := rfl
@[simp] theorem applyReset_cause : (s.applyReset).cause = 0#2 := rfl
@[simp] theorem applyReset_cfg : (s.applyReset).cfg = s.cfg := rfl
@[simp] theorem applyReset_ksSteps : (s.applyReset).ksSteps = s.ksSteps := rfl
@[simp] theorem applyReset_port : (s.applyReset).port = s.port := rfl

@[simp] theorem presentFirst_key (w : CommandWord) : (s.presentFirst w).key = s.key := rfl
@[simp] theorem presentFirst_blk (w : CommandWord) : (s.presentFirst w).blk = s.blk := rfl
@[simp] theorem presentFirst_sk (w : CommandWord) : (s.presentFirst w).sk = s.sk := rfl
@[simp] theorem presentFirst_kvalid (w : CommandWord) : (s.presentFirst w).kvalid = s.kvalid := rfl
@[simp] theorem presentFirst_fault (w : CommandWord) : (s.presentFirst w).fault = s.fault := rfl
@[simp] theorem presentFirst_cause (w : CommandWord) : (s.presentFirst w).cause = s.cause := rfl
@[simp] theorem presentFirst_cfg (w : CommandWord) : (s.presentFirst w).cfg = s.cfg := rfl
@[simp] theorem presentFirst_ksSteps (w : CommandWord) : (s.presentFirst w).ksSteps = s.ksSteps := rfl
@[simp] theorem presentFirst_port (w : CommandWord) : (s.presentFirst w).port = .command w :: s.port := rfl

end Updates

/-- Every field of the reset state of an engine (R26). -/
@[simp] theorem resetWith_cfg (c : Cfg) (k : KsSteps) : (State.resetWith c k).cfg = c := rfl
@[simp] theorem resetWith_ksSteps (c : Cfg) (k : KsSteps) : (State.resetWith c k).ksSteps = k := rfl
@[simp] theorem resetWith_fault (c : Cfg) (k : KsSteps) : (State.resetWith c k).fault = false := rfl
@[simp] theorem resetWith_kvalid (c : Cfg) (k : KsSteps) : (State.resetWith c k).kvalid = false := rfl
@[simp] theorem resetWith_cause (c : Cfg) (k : KsSteps) : (State.resetWith c k).cause = 0#2 := rfl
@[simp] theorem resetWith_port (c : Cfg) (k : KsSteps) : (State.resetWith c k).port = [] := rfl
@[simp] theorem resetWith_key (c : Cfg) (k : KsSteps) : (State.resetWith c k).key = 0#64 := rfl
@[simp] theorem resetWith_blk (c : Cfg) (k : KsSteps) : (State.resetWith c k).blk = 0#64 := rfl
@[simp] theorem resetWith_sk (c : Cfg) (k : KsSteps) :
    (State.resetWith c k).sk = Vector.replicate 16 0#48 := rfl

/-- The placed word is the next event of the port (log 9). -/
@[simp] theorem withFetchWord_port (s : State) (nbits w : Nat) :
    (s.withFetchWord nbits w).port = .command (tableWord nbits w) :: s.port := rfl

/-- Placing a word changes the port alone (log 9). -/
theorem withFetchWord_eq (s : State) (nbits w : Nat) :
    s.withFetchWord nbits w = { s with port := .command (tableWord nbits w) :: s.port } := rfl

end Sys2Proof.Machine
end

