-- ==== Sys2Proof/Laws/Ops.lean ====
section
/-! SUPPORT. What each shared operation can do, said once: the checks of R50, a command word, an event of the
host, a step. Proofs cite these instead of unfolding the operation. -/

namespace Sys2Proof.Machine

/-- A faulted engine ignores a command (R167). -/
@[simp] theorem unlessFaulted_of_fault {s : State} (h : s.fault = true) (run : State → Result) :
    unlessFaulted s run = .next s := by simp [unlessFaulted, h]

/-- An engine without a fault runs the command. -/
@[simp] theorem unlessFaulted_of_running {s : State} (h : s.fault = false) (run : State → Result) :
    unlessFaulted s run = run s := by simp [unlessFaulted, h]

/-- Everything `unlessFaulted` can answer. -/
theorem unlessFaulted_cases {s : State} {run : State → Result} {r : Result} (h : unlessFaulted s run = r) :
    (s.fault = true ∧ r = .next s) ∨ (s.fault = false ∧ run s = r) := by
  cases hf : s.fault
  · exact .inr ⟨rfl, by simpa [hf] using h⟩
  · exact .inl ⟨rfl, by simpa [hf] using h.symm⟩

/-- With valid subkeys the command goes on. -/
@[simp] theorem withSubkeys_of_valid {s : State} (h : s.kvalid = true) (run : State → Result) :
    withSubkeys s run = run s := by simp [withSubkeys, h]

/-- Without valid subkeys the command takes `SUBKEYS_NOT_READY` (R163). -/
@[simp] theorem withSubkeys_of_invalid {s : State} (h : s.kvalid = false) (run : State → Result) :
    withSubkeys s run = .next (s.raiseFault .subkeysNotReady) := by simp [withSubkeys, h]

/-- Everything `withSubkeys` can answer. -/
theorem withSubkeys_cases {s : State} {run : State → Result} {r : Result} (h : withSubkeys s run = r) :
    (s.kvalid = true ∧ run s = r) ∨
      (s.kvalid = false ∧ r = .next (s.raiseFault .subkeysNotReady)) := by
  cases hk : s.kvalid
  · exact .inr ⟨rfl, by simpa [hk] using h.symm⟩
  · exact .inl ⟨rfl, by simpa [hk] using h⟩

/-- Everything an illegal word can do (R50, R162, R167). -/
theorem illegalCommand_cases {s t : State} (h : illegalCommand s = .next t) :
    (s.fault = true ∧ t = s) ∨ (s.fault = false ∧ t = s.raiseFault .illegalCmd) := by
  rcases unlessFaulted_cases h with ⟨hf, ht⟩ | ⟨hf, ht⟩
  · exact .inl ⟨hf, by simpa using ht⟩
  · exact .inr ⟨hf, by simpa using ht.symm⟩

/-- A faulted engine ignores every command (R167). -/
theorem exec_of_fault {s : State} (h : s.fault = true) (i : Instr) : exec i s = .next s := by
  cases i <;>
    simp [exec, h, execNop, execLdkey, execLdblk, execKsgen, execGetsk, execPermIp, execPermIpinv, execPermE,
      execPermP, execPermPc1, execPermPc2, execSubst, execRound, execSwap, execEnc, execDec]

/-- Everything a command can do to an engine without a fault: nothing, a key load, a subkey generation, a
write of `BLK` alone, or `SUBKEYS_NOT_READY` when the subkeys are not valid. -/
theorem exec_cases {i : Instr} {s t : State} (h : exec i s = .next t) (hf : s.fault = false) :
    (i = .nop ∧ t = s) ∨
    (∃ k, i = .ldkey k ∧ t = (s.setKey k).clearKvalid) ∨
    (i = .ksgen ∧ t = (s.setSk (generateSubkeys s.cfg s.ksSteps s.key)).setKvalid) ∨
    (i ≠ .nop ∧ (∀ k, i ≠ .ldkey k) ∧ i ≠ .ksgen ∧ ∃ b, t = s.setBlk b) ∨
    (((∃ n, i = .getsk n) ∨ (∃ n, i = .round n) ∨ i = .enc ∨ i = .dec) ∧ s.kvalid = false ∧
      t = s.raiseFault .subkeysNotReady) := by
  cases i <;> simp only [exec, execNop, execLdkey, execLdblk, execKsgen, execGetsk, execPermIp, execPermIpinv,
    execPermE, execPermP, execPermPc1, execPermPc2, execSubst, execRound, execSwap, execEnc, execDec,
    unlessFaulted_of_running hf, State.setBlkTop, Host.Outcome.next.injEq] at h
  case nop => exact .inl ⟨rfl, h.symm⟩
  case ldkey k => exact .inr (.inl ⟨k, rfl, h.symm⟩)
  case ksgen => exact .inr (.inr (.inl ⟨rfl, h.symm⟩))
  case getsk n =>
    rcases withSubkeys_cases h with ⟨_, h⟩ | ⟨hk, h⟩
    · exact .inr (.inr (.inr (.inl ⟨by simp, by simp, by simp, _, by simpa using h.symm⟩)))
    · exact .inr (.inr (.inr (.inr ⟨.inl ⟨n, rfl⟩, hk, by simpa using h⟩)))
  case round n =>
    rcases withSubkeys_cases h with ⟨_, h⟩ | ⟨hk, h⟩
    · exact .inr (.inr (.inr (.inl ⟨by simp, by simp, by simp, _, by simpa using h.symm⟩)))
    · exact .inr (.inr (.inr (.inr ⟨.inr (.inl ⟨n, rfl⟩), hk, by simpa using h⟩)))
  case enc =>
    rcases withSubkeys_cases h with ⟨_, h⟩ | ⟨hk, h⟩
    · exact .inr (.inr (.inr (.inl ⟨by simp, by simp, by simp, _, by simpa using h.symm⟩)))
    · exact .inr (.inr (.inr (.inr ⟨by simp, hk, by simpa using h⟩)))
  case dec =>
    rcases withSubkeys_cases h with ⟨_, h⟩ | ⟨hk, h⟩
    · exact .inr (.inr (.inr (.inl ⟨by simp, by simp, by simp, _, by simpa using h.symm⟩)))
    · exact .inr (.inr (.inr (.inr ⟨by simp, hk, by simpa using h⟩)))
  all_goals exact .inr (.inr (.inr (.inl ⟨by simp, by simp, by simp, _, h.symm⟩)))

/-- Everything a presented word can do (R50): run the command it decodes to, or be illegal. -/
theorem runWord_cases {w : CommandWord} {s : State} {r : Result} (h : runWord w s = r) :
    (∃ i, decodeWord w = .ok i ∧ exec i s = r) ∨
      (∃ e, decodeWord w = .error e ∧ illegalCommand s = r) := by
  unfold runWord at h
  split at h
  · exact .inl ⟨_, by assumption, h⟩
  · exact .inr ⟨_, by assumption, h⟩

/-- A step of a well-formed engine with nothing pending. -/
theorem step_idle {s : State} (hw : s.cfg.wellFormed = true) (hp : s.port = []) : step s = .next s := by
  simp [step, takeStep, hw, hp]

/-- A step of a well-formed engine takes the oldest pending event. -/
theorem step_event {s : State} {e : HostEvent} {rest : List HostEvent} (hw : s.cfg.wellFormed = true)
    (hp : s.port = e :: rest) : step s = applyEvent e { s with port := rest } := by
  simp [step, takeStep, hw, hp]

/-- Everything a step to a next state can do. -/
theorem step_cases {s t : State} (h : step s = .next t) :
    s.cfg.wellFormed = true ∧
      ((s.port = [] ∧ t = s) ∨
        (∃ rest, s.port = .reset :: rest ∧ t = State.applyReset { s with port := rest }) ∨
        (∃ w rest, s.port = .command w :: rest ∧ runWord w { s with port := rest } = .next t)) := by
  unfold step takeStep at h
  split at h
  · rename_i hw
    refine ⟨hw, ?_⟩
    split at h
    · rename_i hp; exact .inl ⟨hp, by simpa using h.symm⟩
    · rename_i e rest hp
      cases e with
      | reset => exact .inr (.inl ⟨rest, hp, by simpa [applyEvent] using h.symm⟩)
      | command w => exact .inr (.inr ⟨w, rest, hp, h⟩)
  · simp at h

/-- Command lists compose. -/
theorem execAll_cons {i : Instr} {is : List Instr} {s t : State} (h : exec i s = .next t) :
    execAll (i :: is) s = execAll is t := by simp [execAll, h]

/-- Event lists compose. -/
theorem applyEvents_cons {e : HostEvent} {es : List HostEvent} {s t : State} (h : applyEvent e s = .next t) :
    applyEvents (e :: es) s = applyEvents es t := by simp [applyEvents, h]

end Sys2Proof.Machine
end

