-- ==== Sys2Proof/Laws/PerInstr.lean ====
section
/-! SUPPORT. Statements made for all commands, one lemma per constructor: a command's encoding is a word of
its own row of the opcode map (R49). -/

namespace Sys2Proof.Laws.EncodesItsRow

/-- The encoding of `i` is covered by a row of the opcode map that has `i`'s mnemonic (R49). -/
def Statement (i : Instr) : Prop :=
  ∃ r, r ∈ opcodeMap ∧ r.mnemonic = mnemonicOf i ∧ r.covers (encode i) = true

/-- The mask of format I keeps `OP` and drops `IMM`. -/
theorem imm_masked (op : Byte) (imm : Block) :
    commandWord op imm &&& 0xFF0000000000000000#72 = commandWord op 0#64 := by
  apply BitVec.eq_of_getLsbD_eq; intro j hj
  have hm : (0xFF0000000000000000#72) = commandWord 0xFF#8 0#64 := by decide
  rw [hm]
  simp only [commandWord, BitVec.getLsbD_and, BitVec.getLsbD_append]
  by_cases h : j < 64
  · simp [h]
  · have : (0xFF#8).getLsbD (j - 64) = true := by
      have h8 : ∀ m, m < 8 → (0xFF#8).getLsbD m = true := by decide
      exact h8 _ (by omega)
    simp [h, this]

theorem nop : Statement .nop := ⟨opcodeMap[0], by decide, by decide, by decide⟩
theorem ldkey (imm : Block) : Statement (.ldkey imm) :=
  ⟨opcodeMap[1], by decide, by simp [mnemonicOf, opcodeMap], by
    simp only [OpcodeRow.covers, opcodeMap, encode, List.getElem_cons_succ, List.getElem_cons_zero]
    rw [imm_masked]; decide⟩
theorem ldblk (imm : Block) : Statement (.ldblk imm) :=
  ⟨opcodeMap[2], by decide, by simp [mnemonicOf, opcodeMap], by
    simp only [OpcodeRow.covers, opcodeMap, encode, List.getElem_cons_succ, List.getElem_cons_zero]
    rw [imm_masked]; decide⟩
theorem ksgen : Statement .ksgen := ⟨opcodeMap[3], by decide, by decide, by decide⟩
theorem getsk (i : SubkeyIndex) : Statement (.getsk i) :=
  ⟨opcodeMap[4], by decide, by simp [mnemonicOf, opcodeMap], by revert i; decide⟩
theorem permIp : Statement .permIp := ⟨opcodeMap[5], by decide, by decide, by decide⟩
theorem permIpinv : Statement .permIpinv := ⟨opcodeMap[6], by decide, by decide, by decide⟩
theorem permE : Statement .permE := ⟨opcodeMap[7], by decide, by decide, by decide⟩
theorem permP : Statement .permP := ⟨opcodeMap[8], by decide, by decide, by decide⟩
theorem permPc1 : Statement .permPc1 := ⟨opcodeMap[9], by decide, by decide, by decide⟩
theorem permPc2 : Statement .permPc2 := ⟨opcodeMap[10], by decide, by decide, by decide⟩
theorem subst : Statement .subst := ⟨opcodeMap[11], by decide, by decide, by decide⟩
theorem round (i : SubkeyIndex) : Statement (.round i) :=
  ⟨opcodeMap[12], by decide, by simp [mnemonicOf, opcodeMap], by revert i; decide⟩
theorem swap : Statement .swap := ⟨opcodeMap[13], by decide, by decide, by decide⟩
theorem enc : Statement .enc := ⟨opcodeMap[14], by decide, by decide, by decide⟩
theorem dec : Statement .dec := ⟨opcodeMap[15], by decide, by decide, by decide⟩

end Sys2Proof.Laws.EncodesItsRow
end

