-- ==== Sys2Proof/Laws/Run.lean ====
section
/-! SUPPORT. What a run can do, one command at a time, and how the host's events fall into runs. -/

namespace Sys2Proof.Machine

/-- A run of no command ends where it begins. -/
@[simp] theorem runFrom_nil (s : State) : runFrom [] s = .next ⟨s, []⟩ := rfl

/-- A run with one more command in front. -/
theorem runFrom_cons {r : RunItem} {rs : List RunItem} {s t : State} {e : RunEnd}
    (h : runWord r.word s = .next t) (hr : runFrom rs t = .next e) :
    runFrom (r :: rs) s = .next ⟨e.final, r.record t e.reads⟩ := by
  simp only [runFrom, h, hr]

/-- All that a run with a first command can do when it completes. -/
theorem runFrom_cons_cases {r : RunItem} {rs : List RunItem} {s : State} {e : RunEnd}
    (h : runFrom (r :: rs) s = .next e) :
    ∃ t e', runWord r.word s = .next t ∧ runFrom rs t = .next e' ∧ e.final = e'.final ∧
      e.reads = r.record t e'.reads := by
  unfold runFrom at h
  split at h
  · rename_i t ht
    split at h
    · rename_i e' he
      refine ⟨t, e', ht, he, ?_⟩
      cases h
      exact ⟨rfl, rfl⟩
    · cases h
    · cases h
  · cases h
  · cases h

/-- A good run has a result, and it is what the host read. -/
theorem RunEnd.result_of_good {e : RunEnd} (h : e.good) : e.result = some e.reads := by
  have hf : e.final.fault = false := h
  simp [RunEnd.result, hf]

/-- A run in which a fault was set has no result. -/
theorem RunEnd.result_of_fault {e : RunEnd} (h : e.final.fault = true) : e.result = none := by
  simp [RunEnd.result, h]

/-- The events behind a reset begin in the reset state of the same engine (R180). -/
theorem applyEvents_reset (es : List HostEvent) (s : State) :
    applyEvents (.reset :: es) s = applyEvents es s.applyReset := rfl

/-- There is a run before the first reset, if only an empty one. -/
theorem runsOf_ne_nil (es : List HostEvent) : runsOf es ≠ [] := by
  cases es with
  | nil => simp [runsOf]
  | cons e es =>
    cases e with
    | reset => simp [runsOf]
    | command w => simp only [runsOf]; split <;> simp

/-- Commands without a reset are one run. -/
theorem runsOf_commands (ws : List CommandWord) : runsOf (ws.map .command) = [ws] := by
  induction ws with
  | nil => rfl
  | cons w ws ih => simp only [List.map_cons, runsOf, ih]

end Sys2Proof.Machine
end

