-- ==== Sys2Proof/Laws/WellFormed.lean ====
section
/-! SUPPORT. What the checks of WellFormed.lean say about a table's entries. -/

namespace Sys2Proof

/-- Every command is well formed: the operand types admit legal operands only (R30, R46). -/
theorem Instr.wellFormed_all (i : Instr) : i.wellFormed = true := by
  cases i <;> simp [Instr.wellFormed]

/-- The default instance meets R140 (R157 (c)). -/
theorem Cfg.default_wellFormed : Cfg.default.wellFormed = true := by decide

/-- The entries of a checked table are positions of its input. -/
theorem entriesWithin_getElem {m n : Nat} {t : Vector Nat m} (h : entriesWithin n t = true) (i : Nat)
    (hi : i < m) : 1 ≤ t[i] ∧ t[i] ≤ n := by
  simp only [entriesWithin, List.all_eq_true, Bool.and_eq_true, Nat.ble_eq] at h
  exact h _ (by simp)

/-- A list that passes the check has no repeats. -/
theorem nodup_of_noRepeats {l : List Nat} (h : noRepeats l = true) : l.Nodup := by
  induction l with
  | nil => simp
  | cons x xs ih =>
    simp only [noRepeats, Bool.and_eq_true, List.all_eq_true, Bool.not_eq_true'] at h
    refine List.nodup_cons.mpr ⟨fun hx => ?_, ih h.2⟩
    simpa using h.1 x hx

/-- The parts of a well-formed configuration (R140). -/
theorem Cfg.wellFormed_parts {c : Cfg} (h : c.wellFormed = true) :
    entriesWithin 64 c.ip = true ∧ c.ip.toList.Nodup ∧ entriesWithin 64 c.ipinv = true ∧
      (∀ i, i < 64 → c.ip.toList.getD (c.ipinv.toList.getD i 0 - 1) 0 = i + 1) ∧
      entriesWithin 32 c.e = true ∧ entriesWithin 32 c.p = true ∧ entriesWithin 64 c.pc1 = true ∧
      entriesWithin 56 c.pc2 = true ∧ c.shiftOk = true ∧ c.sboxOk = true := by
  simp only [Cfg.wellFormed, Cfg.ipOk, Cfg.ipinvOk, Cfg.eOk, Cfg.pOk, Cfg.pc1Ok, Cfg.pc2Ok,
    Bool.and_eq_true, List.all_eq_true, List.mem_range, Nat.beq_eq] at h
  obtain ⟨⟨⟨⟨⟨⟨⟨⟨h1, h2⟩, h3, h4⟩, h5⟩, h6⟩, h7⟩, h8⟩, h9⟩, h10⟩ := h
  exact ⟨h1, nodup_of_noRepeats h2, h3, h4, h5, h6, h7, h8, h9, h10⟩

end Sys2Proof
end

