-- ==== Sys2Proof/Laws/Units.lean ====
section
/-! SUPPORT. What the four units compute, bit by bit or piece by piece: the permutation multiplexer, the
rotation, the S-box pipeline, the round and the round chain. -/

namespace Sys2Proof.Machine

/-- Position `p` of a permutation is the position that entry `p - 1` of the table names. -/
theorem bitAt_permute {n m : Nat} (v : BitVec n) (t : Vector Nat m) {p : Nat} (h1 : 1 ≤ p) (h2 : p ≤ m) :
    bitAt (permute v t) p = bitAt v (t[p - 1]'(by omega)) := by
  unfold permute
  rw [bitAt_ofPositions _ h1 h2]
  congr 1
  have : p - 1 < t.toList.length := by simp; omega
  rw [List.getD_eq_getElem _ _ this]
  simp

/-- Position `p` of a rotation. -/
theorem bitAt_rotl28 (h : BitVec 28) (s : Nat) {p : Nat} (h1 : 1 ≤ p) (h2 : p ≤ 28) :
    bitAt (rotl28 h s) p = bitAt h ((p - 1 + s) % 28 + 1) := by
  unfold rotl28; rw [bitAt_ofPositions _ h1 h2]

/-- Entry `i` of the generated subkeys. -/
theorem getElem_generateSubkeys (c : Cfg) (k : KsSteps) (key : Block) (i : Nat) (hi : i < 16) :
    (generateSubkeys c k key)[i] = derivedSubkey c k key i := by
  simp [generateSubkeys]

/-- The halves of a round (R101). -/
@[simp] theorem leftHalf_feistelRound (c : Cfg) (b : Block) (k : Subkey) :
    leftHalf (feistelRound c b k) = rightHalf b := by simp [feistelRound]

@[simp] theorem rightHalf_feistelRound (c : Cfg) (b : Block) (k : Subkey) :
    rightHalf (feistelRound c b k) = roundFunction c (rightHalf b) k ^^^ ~~~(leftHalf b) := by
  simp [feistelRound]

/-- The halves of a swapped block (R103). -/
@[simp] theorem leftHalf_swapHalves (b : Block) : leftHalf (swapHalves b) = rightHalf b := by
  simp [swapHalves]

@[simp] theorem rightHalf_swapHalves (b : Block) : rightHalf (swapHalves b) = leftHalf b := by
  simp [swapHalves]

/-- Two blocks with equal halves are equal. -/
theorem eq_of_halves {a b : Block} (hl : leftHalf a = leftHalf b) (hr : rightHalf a = rightHalf b) : a = b := by
  rw [← joinHalves_halves a, ← joinHalves_halves b, hl, hr]

/-- The round chain taken from its first round. -/
theorem blockAfter_succ' (c : Cfg) (k : Nat → Subkey) (x : Block) (n : Nat) :
    blockAfter c k x (n + 1) = blockAfter c (fun i => k (i + 1)) (feistelRound c x (k 0)) n := by
  induction n with
  | zero => rfl
  | succ n ih => rw [blockAfter, ih, blockAfter]

end Sys2Proof.Machine
end

