-- ==== Sys2Proof/Tests/Slice0.lean ====
section
/-! SUPPORT. Tests of one step each, the smoke tests of the checks, and the witnesses of the statements. Words and
expected values are written out from the spec: "V<n>" and "P<n>" are its test vectors
(95_test_vectors.md), "R<n>" the example a rule gives. -/

namespace Sys2Proof.Tests

open Sys2Proof.Machine

set_option Elab.async false

/-! ## Helpers -/

/-- The engine after reset with a block in `BLK` (default tables, 16 steps). -/
def running (b : Block) : State := { State.reset with blk := b }

/-- The subkeys of the key "12345678" (V30). -/
def sk1to8 : SubkeyStore :=
  #v[0x502CAC572AC2#48, 0x50ACA450A347#48, 0xD0AC26F6848C#48, 0xE0A6264837CB#48, 0xE096263EF029#48,
    0xE09272625D62#48, 0xA4D2728CA93A#48, 0xA65352E55E50#48, 0x265353CB9A40#48, 0x2F5151D0C73C#48,
    0x0F41D9191E8C#48, 0x1F4199D870B1#48, 0x1F0989236A2D#48, 0x1B288DB23992#48, 0x192C8CA50337#48,
    0x512C8CA743C0#48]

/-- The engine with the key "12345678", its subkeys and a block. -/
def ready (b : Block) : State := { running b with key := 0x3132333435363738#64, sk := sk1to8, kvalid := true }

/-- An engine that has met `SUBKEYS_NOT_READY` (end of P4). -/
def faulted : State := { running 0x4142434445464748#64 with fault := true, cause := 2#2 }

/-- What the host sees after a step that takes the 72-bit word `w`. -/
def viewAfter (s : State) (w : Nat) : Option HostView :=
  match step (s.withFetchWord 72 w) with
  | .next t => some t.hostView
  | .fault _ => none
  | .refused _ => none

/-- The six registers of R13. -/
def registers (s : State) : Block × Block × List Subkey × Bool × Bool × BitVec 2 :=
  (s.key, s.blk, s.sk.toList, s.kvalid, s.fault, s.cause)

/-- The registers after a step that takes the word `w`. -/
def registersAfter (s : State) (w : Nat) : Option (Block × Block × List Subkey × Bool × Bool × BitVec 2) :=
  match step (s.withFetchWord 72 w) with
  | .next t => some (registers t)
  | .fault _ => none
  | .refused _ => none

/-- The outcome is a refusal for a malformed configuration. -/
def isMalformed (r : Result) : Bool :=
  match r with
  | .refused .malformedConfiguration => true
  | .refused (.notModelled _) => false
  | .next _ => false
  | .fault _ => false

/-! ## Decoding: the words of R49, P1 to P9 -/

theorem test_decode_nop : decodeTableWord 72 0x000000000000000000 = some .nop := by decide
theorem test_decode_ldkey :
    decodeTableWord 72 0x103132333435363738 = some (.ldkey 0x3132333435363738#64) := by decide
theorem test_decode_ldblk :
    decodeTableWord 72 0x112014C482CBBFD988 = some (.ldblk 0x2014C482CBBFD988#64) := by decide
theorem test_decode_ksgen : decodeTableWord 72 0x200000000000000000 = some .ksgen := by decide
theorem test_decode_getsk :
    decodeTableWord 72 0x300000000000000000 = some (.getsk 0) ∧
    decodeTableWord 72 0x3E0000000000000000 = some (.getsk 14) := by decide
theorem test_decode_perm :
    [0x400000000000000000, 0x410000000000000000, 0x420000000000000000, 0x430000000000000000,
      0x440000000000000000, 0x450000000000000000].map (decodeTableWord 72) =
    [some .permIp, some .permIpinv, some .permE, some .permP, some .permPc1, some .permPc2] := by decide
theorem test_decode_subst : decodeTableWord 72 0x500000000000000000 = some .subst := by decide
theorem test_decode_round :
    decodeTableWord 72 0x610000000000000000 = some (.round 1) ∧
    decodeTableWord 72 0x6F0000000000000000 = some (.round 15) := by decide
theorem test_decode_swap : decodeTableWord 72 0x700000000000000000 = some .swap := by decide
theorem test_decode_enc_dec :
    decodeTableWord 72 0x800000000000000000 = some .enc ∧
    decodeTableWord 72 0x810000000000000000 = some .dec := by decide
/-- R51: the opcodes next to the legal ones, and an `IMM` that must be zero (V51 to V54). -/
theorem test_decode_illegal :
    [0x010000000000000000, 0x0F0000000000000000, 0x120000000000000000, 0x1F0000000000000000,
      0x210000000000000000, 0x2F0000000000000000, 0x460000000000000000, 0x4F0000000000000000,
      0x510000000000000000, 0x5F0000000000000000, 0x710000000000000000, 0x7F0000000000000000,
      0x820000000000000000, 0x900000000000000000, 0xFF0000000000000000, 0x008000000000000000,
      0x800000000000000001, 0x300000000000000001].all (fun w => decodeTableWord 72 w = none) = true := by
  decide
/-- R48: the bytes of `LDKEY "12345678"`, and a truncated word. -/
theorem test_decode_bytes :
    decodeBytes [0x10#8, 0x31#8, 0x32#8, 0x33#8, 0x34#8, 0x35#8, 0x36#8, 0x37#8, 0x38#8, 0xFF#8] =
      .ok (.ldkey 0x3132333435363738#64, [0xFF#8]) ∧
    decodeBytes [0x80#8, 0#8, 0#8, 0#8, 0#8, 0#8, 0#8, 0#8] = .error .truncated := by decide

/-! ## One step of each command -/

theorem test_nop : registersAfter (ready 0x4142434445464748#64) 0x000000000000000000 =
    some (registers (ready 0x4142434445464748#64)) := by decide +kernel   -- V50
theorem test_ldkey : registersAfter (ready 1#64) 0x103132333435363738 =
    some (registers { ready 1#64 with kvalid := false }) := by decide +kernel   -- V48, P5: the same key still clears KVALID
theorem test_ldblk : viewAfter (running 0#64) 0x114142434445464748 =
    some ⟨0x4142434445464748#64, 0x00#8⟩ := by decide +kernel   -- V49
theorem test_ksgen : registersAfter { ready 0#64 with sk := State.reset.sk, kvalid := false } 0x200000000000000000 =
    some (registers (ready 0#64)) := by decide +kernel   -- V30
theorem test_ksgen_compat :
    registersAfter { ready 0#64 with ksSteps := .fifteen } 0x200000000000000000 =
    some (registers { ready 0#64 with sk := sk1to8.set 15 0#48 }) := by decide +kernel   -- V31
theorem test_getsk : viewAfter (ready 0xFFFFFFFFFFFFFFFF#64) 0x300000000000000000 =
    some ⟨0x502CAC572AC20000#64, 0x01#8⟩ := by decide +kernel   -- R92
theorem test_getsk_not_ready : viewAfter (running 0xCB3D8B0E17F50000#64) 0x300000000000000000 =
    some ⟨0xCB3D8B0E17F50000#64, 0x0A#8⟩ := by decide +kernel   -- P5
theorem test_perm_ip : viewAfter (running 0x0123456789ABCDEF#64) 0x400000000000000000 =
    some ⟨0xCC00CCFFF0AAF0AA#64, 0x00#8⟩ := by decide +kernel   -- V4c
theorem test_perm_ipinv : viewAfter (running 0x0000000000000001#64) 0x410000000000000000 =
    some ⟨0x0200000000000000#64, 0x00#8⟩ := by decide +kernel   -- V7b
theorem test_perm_e : viewAfter (running 0xF0AAF0AAFFFFFFFF#64) 0x420000000000000000 =
    some ⟨0x7A15557A15550000#64, 0x00#8⟩ := by decide +kernel   -- V13
theorem test_perm_p : viewAfter (running 0x5C82B597DEADBEEF#64) 0x430000000000000000 =
    some ⟨0x234AA9BB00000000#64, 0x00#8⟩ := by decide +kernel   -- V16
theorem test_perm_pc1 : viewAfter (running 0x133457799BBCDFF1#64) 0x440000000000000000 =
    some ⟨0xF0CCAAF556678F00#64, 0x00#8⟩ := by decide +kernel   -- V15
theorem test_perm_pc2 : viewAfter (running 0xE19955FAACCF1EFF#64) 0x450000000000000000 =
    some ⟨0x1B02EFFC70720000#64, 0x00#8⟩ := by decide +kernel   -- V14
theorem test_subst : viewAfter (running 0x6117BA866527FFFF#64) 0x500000000000000000 =
    some ⟨0x5C82B59700000000#64, 0x00#8⟩ := by decide +kernel   -- V26
theorem test_subst_groups :   -- V21, V24: the row's low bit, and group 7 alone
    viewAfter (running 0x0400000000000000#64) 0x500000000000000000 =
      some ⟨0x0FA72C4D00000000#64, 0x00#8⟩ ∧
    viewAfter (running 0x0000000000010000#64) 0x500000000000000000 =
      some ⟨0xEFA72C4100000000#64, 0x00#8⟩ := by decide +kernel
theorem test_round : viewAfter (ready 0xFF00785500008066#64) 0x600000000000000000 =
    some ⟨0x0000806684FF5D6B#64, 0x01#8⟩ := by decide +kernel   -- V36
theorem test_round_not_ready : viewAfter (running 5#64) 0x600000000000000000 =
    some ⟨5#64, 0x0A#8⟩ := by decide +kernel   -- V56
theorem test_swap : viewAfter (running 0xFC21F03854622670#64) 0x700000000000000000 =
    some ⟨0x54622670FC21F038#64, 0x00#8⟩ := by decide +kernel   -- V38
theorem test_enc : viewAfter (ready 0x4142434445464748#64) 0x800000000000000000 =
    some ⟨0x2014C482CBBFD988#64, 0x01#8⟩ := by decide +kernel   -- V40
theorem test_enc_compat :
    viewAfter { ready 0x4142434445464748#64 with ksSteps := .fifteen, sk := sk1to8.set 15 0#48 }
      0x800000000000000000 = some ⟨0x311094928AAFCCD8#64, 0x11#8⟩ := by decide +kernel   -- V45, P7
theorem test_dec : viewAfter (ready 0x2014C482CBBFD988#64) 0x810000000000000000 =
    some ⟨0x4142434445464748#64, 0x01#8⟩ := by decide +kernel   -- V41

/-! ## Faults, reset, configuration -/

theorem test_illegal_wins : viewAfter (running 7#64) 0x800000000000000001 =
    some ⟨7#64, 0x06#8⟩ := by decide +kernel   -- V54
theorem test_faulted_ignores : registersAfter faulted 0x200000000000000000 = some (registers faulted) := by
  decide +kernel   -- V57
theorem test_reset : applyEvent .reset { ready 9#64 with fault := true, cause := 1#2 } = .next State.reset := rfl   -- V59
theorem test_outside_positions : bitAt 0xFF#8 0 = false ∧ bitAt 0xFF#8 9 = false ∧ bitAt 0x80#8 1 = true := by
  decide   -- log 7
theorem test_default_configuration : Cfg.default.wellFormed = true := by decide +kernel   -- R157 (c)

/-! ## Runs (R189) -/

/-- The final `STATUS` of a run and its result. -/
def statusAndResult (r : Host.Outcome RunEnd Fault Refusal) : Option (Byte × Option (List Block)) :=
  match r with
  | .next e => some (e.final.status, e.result)
  | .fault _ => none
  | .refused _ => none

theorem test_run_units :   -- P8; the host reads after every command, and LDBLK is no data command
    statusAndResult (runOf Cfg.default .sixteen
      [⟨0x116117BA866527FFFF#72, true⟩, ⟨0x500000000000000000#72, true⟩, ⟨0x430000000000000000#72, true⟩]) =
    some (0x00#8, some [0x5C82B59700000000#64, 0x234AA9BB00000000#64]) := by decide +kernel
theorem test_run_failed :   -- P4: a run that ends in a fault has no result
    statusAndResult (runOf Cfg.default .sixteen
      [⟨0x103132333435363738#72, false⟩, ⟨0x114142434445464748#72, false⟩, ⟨0x800000000000000000#72, true⟩]) =
    some (0x0A#8, none) := by decide +kernel
theorem test_runs_of_events :
    runsOf [.command 1#72, .reset, .reset, .command 2#72, .command 3#72] = [[1#72], [], [2#72, 3#72]] := by decide

/-! ## Smoke tests: an ill-formed term for every check (R140; 93_implementation_defined.md V8, V9; R53, R54) -/

theorem smoke_ip_range : Cfg.wellFormed { Cfg.default with ip := Cfg.default.ip.set 0 65 } = false := by
  decide +kernel
theorem smoke_ip_repeat : Cfg.wellFormed { Cfg.default with ip := Cfg.default.ip.set 0 50 } = false := by
  decide +kernel
theorem smoke_ipinv_range : Cfg.wellFormed { Cfg.default with ipinv := Cfg.default.ipinv.set 3 0 } = false := by
  decide +kernel
theorem smoke_ipinv_not_inverse : Cfg.wellFormed { Cfg.default with ipinv := Cfg.default.ip } = false := by
  decide +kernel
theorem smoke_e : Cfg.wellFormed { Cfg.default with e := Cfg.default.e.set 47 33 } = false := by decide +kernel
theorem smoke_p : Cfg.wellFormed { Cfg.default with p := Cfg.default.p.set 0 0 } = false := by decide +kernel
theorem smoke_pc1 : Cfg.wellFormed { Cfg.default with pc1 := Cfg.default.pc1.set 55 65 } = false := by
  decide +kernel
theorem smoke_pc2 : Cfg.wellFormed { Cfg.default with pc2 := Cfg.default.pc2.set 0 57 } = false := by
  decide +kernel
theorem smoke_shift : Cfg.wellFormed { Cfg.default with shift := Cfg.default.shift.set 0 0 } = false := by
  decide +kernel
theorem smoke_sbox :
    Cfg.wellFormed { Cfg.default with
      sbox := Cfg.default.sbox.set 7 (Cfg.default.sbox[7].set 3 (Cfg.default.sbox[7][3].set 15 16)) } = false := by
  decide +kernel
theorem smoke_p_may_repeat : Cfg.wellFormed { Cfg.default with p := Cfg.default.p.set 0 7 } = true := by
  decide +kernel
theorem smoke_shift_28 : Cfg.wellFormed { Cfg.default with shift := Cfg.default.shift.set 0 28 } = true := by
  decide +kernel
theorem smoke_ks_steps : [0, 14, 17].map KsSteps.ofNat? = [none, none, none] := by decide
theorem smoke_lines :
    [Line.getsk 16, .round 16, .dround 16, .perm 6, .ldkey (.hex (List.replicate 15 1#4)),
      .ldblk (.hex (List.replicate 17 1#4)), .setkey (.text ['1', '2', '3', '4', '5', '6', '7']),
      .encblk (.text ['1', '2', '3', '4', '5', '6', '7', '8', '9']),
      .decblk (.text ['1', '2', '3', '4', '5', '6', '7', 'é'])].map Line.expand =
    [none, none, none, none, none, none, none, none, none] := by decide

/-! ## The listing and the host (R53, R132, R134, P6) -/

theorem test_listing :   -- R53: both spellings are the same word
    assembleLine "LDKEY \"12345678\" ; the key".toList = some [0x103132333435363738#72] ∧
    assembleLine "LDKEY 0x3132333435363738".toList = some [0x103132333435363738#72] ∧
    assembleLine "DROUND 0".toList = some [0x6F0000000000000000#72] ∧
    assembleLine "PERM 6".toList = none := by decide +kernel
theorem test_stream_raw :   -- P6
    encryptStream .raw "12345678".toList
      [0x41#8, 0x42#8, 0x43#8, 0x44#8, 0x45#8, 0x46#8, 0x47#8, 0x48#8, 0x41#8, 0x42#8, 0x43#8] State.reset =
    .ok [0x20#8, 0x14#8, 0xC4#8, 0x82#8, 0xCB#8, 0xBF#8, 0xD9#8, 0x88#8,
      0x6D#8, 0xBB#8, 0x60#8, 0x6F#8, 0x4C#8, 0xB6#8, 0x17#8, 0xFB#8] := by decide +kernel
theorem test_bit_text : toBitText [0xA5#8] = "10100101".toList := by decide +kernel   -- R132
theorem test_partial_chunk : decryptStream .raw "12345678".toList [0x20#8] State.reset =
    .error .formatError := by decide +kernel   -- R129
theorem test_output_names :   -- R134, S10
    defaultOutputName .encrypt "msg.txt" = "msg.txt.enc" ∧
    defaultOutputName .decrypt "msg.txt" = "msg.txtdec" := by decide

/-! ## Witnesses: concrete states and operands that meet the hypotheses of the statements, clause by clause -/

/-- A configuration that fails the check: `IPINV` is not the inverse of `IP`. -/
def badCfg : Cfg := { Cfg.default with ipinv := Cfg.default.ip }

/-- An engine to which one word is presented, with a reset behind it. -/
def presented (s : State) (w : CommandWord) : State := { s with port := [.command w, .reset] }

theorem witness_DecodeInvertsEncode :
    (Instr.round 15).wellFormed = true ∧ (Instr.ldkey 0xFFFFFFFFFFFFFFFF#64).wellFormed = true := by decide
theorem witness_EncodeInvertsDecode : decodeWord 0x6F0000000000000000#72 = .ok (.round 15) := by decide
theorem witness_DecodeFollowsOpcodeMap :
    decodeWord 0x3F0000000000000000#72 = .ok (.getsk 15) ∧
    (opcodeMap[4] ∈ opcodeMap ∧ 0x3F0000000000000000#72 &&& opcodeMap[4].mask = opcodeMap[4].pattern) := by decide
theorem witness_IllegalWordsByOpcode :
    0x46 = ((0x460000000000000000#72).extractLsb' 64 8).toNat ∧
    decodeWord 0x460000000000000000#72 = .error (.unassignedOpcode 0x46#8) ∧
    decodeWord 0x450000000000000001#72 = .error (.immNotZero 0x45#8) ∧ State.reset.fault = false := by decide
theorem witness_DecodedOperandsAreFieldsOfTheWord :
    decodeWord 0x108000000000000001#72 = .ok (.ldkey 0x8000000000000001#64) ∧
    decodeWord 0x118000000000000001#72 = .ok (.ldblk 0x8000000000000001#64) ∧
    decodeWord 0x3F0000000000000000#72 = .ok (.getsk 15) ∧ decodeWord 0x600000000000000000#72 = .ok (.round 0) ∧
    (1 ≤ 1 ∧ 64 ≤ 64) := by decide
theorem witness_ByteFormIsOpFirst :
    8 < 9 ∧ [0x80#8, 0#8, 0#8, 0#8, 0#8, 0#8, 0#8, 0#8].length < 9 ∧ ([] : List Byte).length < 9 := by decide
theorem witness_StepRunsTheDecodedCommand :
    (presented State.reset 0x800000000000000000#72).cfg.wellFormed = true ∧
    (presented State.reset 0x800000000000000000#72).port = .command 0x800000000000000000#72 :: [.reset] ∧
    decodeWord 0x800000000000000000#72 = .ok .enc := by decide +kernel
theorem witness_StepRaisesIllegalCmd :
    (presented State.reset 0x460000000000000000#72).cfg.wellFormed = true ∧
    (presented State.reset 0x460000000000000000#72).fault = false ∧
    (presented State.reset 0x460000000000000000#72).port = .command 0x460000000000000000#72 :: [.reset] ∧
    (∀ r ∈ opcodeMap, 0x460000000000000000#72 &&& r.mask ≠ r.pattern) := by decide +kernel
theorem witness_ChecksAreMadeInOrder :
    faulted.fault = true ∧
    (State.reset.fault = false ∧ ∀ r ∈ opcodeMap, 0x800000000000000001#72 &&& r.mask ≠ r.pattern) ∧
    (State.reset.fault = false ∧ decodeWord 0x3F0000000000000000#72 = .ok (.getsk 15) ∧
      mnemonicOf (.getsk 15) ∈ ["GETSK", "ROUND", "ENC", "DEC"] ∧ State.reset.kvalid = false) ∧
    (State.reset.fault = false ∧ decodeWord 0x700000000000000000#72 = .ok .swap ∧
      mnemonicOf .swap ∉ ["GETSK", "ROUND", "ENC", "DEC"]) ∧
    ((ready 0#64).fault = false ∧ decodeWord 0x810000000000000000#72 = .ok .dec ∧ (ready 0#64).kvalid = true) := by
  decide
theorem witness_FaultIsTerminal :
    faulted.fault = true ∧ applyEvents [.command 0x000000000000000000#72, .reset] faulted = .next State.reset ∧
    State.reset ≠ faulted :=
  ⟨rfl, rfl, fun h => by simpa [faulted, State.reset, State.resetWith] using congrArg State.fault h⟩
theorem witness_ResetEventRestoresResetValues :
    ({ faulted with port := [.reset, .command 0#72] } : State).cfg.wellFormed = true ∧
    ({ faulted with port := [.reset, .command 0#72] } : State).port = .reset :: [.command 0#72] := by decide +kernel
theorem witness_ResetValues :
    (ready 0#64).ksSteps.steps = 16 ∧ ({ ready 0#64 with ksSteps := .fifteen } : State).ksSteps.steps = 15 := by decide
theorem witness_IdleEngineHoldsItsState :
    (ready 3#64).cfg.wellFormed = true ∧ (ready 3#64).port = [] := ⟨Cfg.default_wellFormed, rfl⟩
theorem witness_MalformedConfigurationIsRefused :
    badCfg.wellFormed = false ∧ ({ State.reset with cfg := badCfg } : State).cfg.wellFormed = false ∧
    Cfg.default.wellFormed = true ∧ (14 ≠ 16 ∧ 14 ≠ 15) ∧ (17 ≠ 16 ∧ 17 ≠ 15) := by decide +kernel
theorem witness_malformed_is_refused :
    isMalformed (step { State.reset with cfg := badCfg }) = true ∧ build badCfg 16 = none := by decide +kernel
theorem witness_EveryCommandCompletes :
    (ready 0#64).cfg.wellFormed = true ∧
    (∃ e, runFrom [⟨0x000000000000000000#72, true⟩] (ready 1#64) = .next e ∧ e.good) ∧
    isDataWord 0x700000000000000000#72 = true ∧ isDataWord 0x300000000000000000#72 = false :=
  ⟨Cfg.default_wellFormed, ⟨⟨ready 1#64, []⟩, rfl, rfl⟩, by decide, by decide⟩
/-- The hypothesis `FAULT = 0` of `LDKEY`, `LDBLK`, `KSGEN`, the six `PERM` commands, `SUBST`. -/
theorem witness_LdkeyLdblkKsgenPerm : (running 0x4142434445464748#64).fault = false := rfl
/-- The hypotheses `FAULT = 0`, `KVALID = 1` of `GETSK`, `ENC`, `DEC`. -/
theorem witness_GetskEncDec : (ready 0#64).fault = false ∧ (ready 0#64).kvalid = true := ⟨rfl, rfl⟩
theorem witness_MultiplexerInputMayBeTheWholeBlock : Cfg.default.wellFormed = true := Cfg.default_wellFormed
/-- Group 0 of V19 is `011000` (row 0, column 12), group 7 of V25 is `111111` (row 3, column 15). -/
theorem witness_SubstLooksUpEightGroups :
    (running 0x6117BA8665270000#64).fault = false ∧
    0 = 2 * (bitAt 0x6117BA8665270000#64 1).toNat + (bitAt 0x6117BA8665270000#64 6).toNat ∧
    12 = 8 * (bitAt 0x6117BA8665270000#64 2).toNat + 4 * (bitAt 0x6117BA8665270000#64 3).toNat +
      2 * (bitAt 0x6117BA8665270000#64 4).toNat + (bitAt 0x6117BA8665270000#64 5).toNat ∧
    3 = 2 * (bitAt 0x00000000003F0000#64 43).toNat + (bitAt 0x00000000003F0000#64 48).toNat ∧
    15 = 8 * (bitAt 0x00000000003F0000#64 44).toNat + 4 * (bitAt 0x00000000003F0000#64 45).toNat +
      2 * (bitAt 0x00000000003F0000#64 46).toNat + (bitAt 0x00000000003F0000#64 47).toNat := by decide
theorem witness_RoundMixesTheHalves :
    (ready 0xFF00785500008066#64).fault = false ∧ (ready 0xFF00785500008066#64).kvalid = true ∧
    (ready 0xFF00785500008066#64).blk = (0xFF007855#32 ++ 0x00008066#32 : BitVec 64) := by decide
theorem witness_SwapExchangesHalves :
    (running 0xFC21F03854622670#64).fault = false ∧
    (running 0xFC21F03854622670#64).blk = (0xFC21F038#32 ++ 0x54622670#32 : BitVec 64) := by decide
theorem witness_SubkeysNotReadyExactlyWhenInvalid :
    (running 5#64).fault = false ∧ (running 5#64).kvalid = false ∧
    exec .enc (running 5#64) = .next ((running 5#64).raiseFault .subkeysNotReady) ∧
    ((running 5#64).raiseFault .subkeysNotReady).fault = true := ⟨rfl, rfl, rfl, rfl⟩
theorem witness_FaultEntryWritesOnlyFaultAndCause :
    (running 5#64).fault = false ∧
    runWord 0x460000000000000000#72 (running 5#64) = .next ((running 5#64).raiseFault .illegalCmd) ∧
    ((running 5#64).raiseFault .illegalCmd).fault = true := ⟨rfl, rfl, rfl⟩
theorem witness_RegistersHaveOnlyTheirWriters :
    exec .nop (ready 1#64) = .next (ready 1#64) ∧ mnemonicOf .nop ≠ "LDKEY" ∧ mnemonicOf .nop ≠ "KSGEN" ∧
    mnemonicOf .nop ∉ ["LDKEY", "KSGEN"] ∧ mnemonicOf .nop ∈ ["NOP", "LDKEY", "KSGEN"] ∧
    mnemonicOf .nop ∉ ["GETSK", "ROUND", "ENC", "DEC"] := ⟨rfl, by decide⟩
theorem witness_ConfigurationIsNeverWritten :
    Host.Core.run Sys2Proof.core 1 State.reset = .next State.reset ∧ step State.reset = .next State.reset := ⟨rfl, rfl⟩
theorem witness_FaultConsistencyIsInvariant :
    State.reset.faultConsistent ∧ faulted.faultConsistent ∧ step State.reset = .next State.reset :=
  ⟨⟨by decide, by decide⟩, ⟨by decide, by decide⟩, rfl⟩
theorem witness_ValidSubkeysMatchKeyIsInvariant :
    State.reset.subkeysCurrent ∧ step State.reset = .next State.reset :=
  ⟨fun h => by simp [State.reset, State.resetWith] at h, rfl⟩
theorem witness_subkeysCurrent_when_valid :
    (ready 0#64).kvalid = true ∧
    (ready 0#64).sk.toList = (generateSubkeys Cfg.default .sixteen 0x3132333435363738#64).toList := by
  decide +kernel
theorem witness_KeyIsReadOnlyByKsgen : Instr.enc ≠ .ksgen ∧ Instr.ldkey 0#64 ≠ .ksgen := by decide
theorem witness_StaleSubkeysAreUnobservable : ({ ready 0#64 with kvalid := false } : State).kvalid = false := rfl
theorem witness_ShortInputsIgnoreTheRestOfBlk :
    (running 0xF0AAF0AA00000000#64).fault = false ∧
    (0xF0AAF0AAFFFFFFFF#64).extractLsb' 32 32 = (running 0xF0AAF0AA00000000#64).blk.extractLsb' 32 32 ∧
    (0xF0AAF0AA0000FFFF#64).extractLsb' 16 48 = (running 0xF0AAF0AA00000000#64).blk.extractLsb' 16 48 ∧
    (0xF0AAF0AA000000FF#64).extractLsb' 8 56 = (running 0xF0AAF0AA00000000#64).blk.extractLsb' 8 56 := by decide
theorem witness_ByteZeroIsMostSignificant : (1 ≤ 1 ∧ 1 ≤ 8 * 6) ∧ (1 ≤ 48 ∧ 48 ≤ 8 * 6) := by decide
theorem witness_PermuteSelectsTableBits :
    ∀ i : Fin 3, 1 ≤ (#v[1, 32, 1] : Vector Nat 3)[i] ∧ (#v[1, 32, 1] : Vector Nat 3)[i] ≤ 32 := by decide
theorem witness_PermuteLaws :
    (∀ i : Fin 2, 1 ≤ (#v[56, 1] : Vector Nat 2)[i] ∧ (#v[56, 1] : Vector Nat 2)[i] ≤ 56) ∧
    Cfg.default.wellFormed = true := ⟨by decide, Cfg.default_wellFormed⟩
/-- Where the two ranges of the rotation meet, for a count of 1, and the whole range for a count of 28. -/
theorem witness_RotationIsLeftCircular :
    (1 ≤ 27 ∧ 27 ≤ 28 - 1 % 28) ∧ (28 - 1 % 28 < 28 ∧ 28 ≤ 28) ∧ (1 ≤ 28 ∧ 28 ≤ 28 - 28 % 28) := by decide
theorem witness_KeyScheduleProperties :
    Cfg.default.shift.toList.sum = 28 ∧ Cfg.default.wellFormed = true ∧
    (15 : Fin 16).val < KsSteps.sixteen.steps ∧ (14 : Fin 16).val < KsSteps.fifteen.steps := by decide +kernel
theorem witness_DefaultParityPositionsAreIgnored :
    ∀ p : Fin 65, 1 ≤ p.val → p.val % 8 ≠ 0 → bitAt 0#64 p.val = bitAt 0x0101010101010101#64 p.val := by
  decide
theorem witness_CompatModeDiffersOnlyInSubkey15 : (14 : Fin 16).val < 15 ∧ (0 : Fin 16).val < 15 := by decide
theorem witness_DecryptionInvertsEncryption : Cfg.default.wellFormed = true := Cfg.default_wellFormed
theorem witness_EncThenDecRestoresTheState :
    (ready 0#64).cfg.wellFormed = true ∧ (ready 0#64).fault = false ∧ (ready 0#64).kvalid = true :=
  ⟨Cfg.default_wellFormed, rfl, rfl⟩
theorem witness_EncAndDecDecomposeIntoUnits :
    ((ready 0#64).fault = false ∧ (ready 0#64).kvalid = true) ∧
    ((running 0#64).fault = false ∧ (running 0#64).kvalid = false) := by decide
theorem witness_ComplementedKeyAndBlockComplementCiphertext : Cfg.default.wellFormed = true := Cfg.default_wellFormed
theorem witness_TextKeysAreEightAsciiCharacters :
    (['1', '2', '3', '4', '5', '6', '7', '8'].length = 8 ∧
      ∀ ch ∈ ['1', '2', '3', '4', '5', '6', '7', '8'], ch.toNat < 128) ∧
    ¬(['1', '2', '3', '4', '5', '6', '7'].length = 8 ∧
      ∀ ch ∈ ['1', '2', '3', '4', '5', '6', '7'], ch.toNat < 128) ∧
    ¬(['1', '2', '3', '4', '5', '6', '7', 'é'].length = 8 ∧
      ∀ ch ∈ ['1', '2', '3', '4', '5', '6', '7', 'é'], ch.toNat < 128) ∧
    (List.replicate 8 0x41#8).length = 8 := by
  refine ⟨⟨rfl, by simp⟩, by simp, fun h => ?_, rfl⟩
  exact absurd (h.2 'é' (by simp)) (by decide)
theorem witness_PartialDecryptionChunkIsRejected :
    (List.replicate 16 0x20#8).length % 8 = 0 ∧ (List.replicate 7 0x20#8).length % 8 ≠ 0 ∧
    (List.replicate 9 0x20#8).length % 8 ≠ 0 := by decide
theorem witness_BitTextFraming : 7 < 8 ∧ ∃ ch ∈ ['1', '0', '2'], ch ≠ '0' ∧ ch ≠ '1' :=
  ⟨by decide, '2', by decide, by decide, by decide⟩
theorem witness_DecryptedStreamIsThePaddedInput :
    Cfg.default.wellFormed = true ∧ isText8 ['1', '2', '3', '4', '5', '6', '7', '8'] = true :=
  ⟨Cfg.default_wellFormed, by decide⟩
theorem witness_PseudoCommandExpansions :
    (ImmOperand.hex (List.replicate 16 0xF#4)).wellFormed = true ∧
    (ImmOperand.text ['A', 'B', 'C', 'D', 'E', 'F', 'G', 'H']).wellFormed = true ∧ 6 ≤ 6 := by decide

end Sys2Proof.Tests
end

/-! # The state and its status register (10_state.md)

`STATUS` field by field (R19) and after a reset (R26); the two obligations follow from these rules and from the
field lemmas of `applyReset` in Laws/State.lean. -/

namespace Sys2Proof.Machine

section StatusFields

variable (s : State)

/-- `KS15` is the strap setting 15 (R19). -/
theorem ks15_eq_true_iff : s.ks15 = true ↔ s.ksSteps.steps = 15 := decide_eq_true_iff

/-- Reset leaves `KS15` as the strap has it (R26). -/
@[simp] theorem applyReset_ks15 : s.applyReset.ks15 = s.ks15 := rfl

/-- A bit of `STATUS` at the width of its five fields, where the lemmas about `++` apply. -/
theorem status_getLsbD (i : Nat) : s.status.getLsbD i =
    (0#3 ++ BitVec.ofBool s.ks15 ++ s.cause ++ BitVec.ofBool s.fault ++
      BitVec.ofBool s.kvalid).getLsbD i := rfl

/-- A run of bits of `STATUS` at the width of its five fields, where the lemmas about `++` apply. -/
theorem status_extractLsb' (start len : Nat) : s.status.extractLsb' start len =
    (0#3 ++ BitVec.ofBool s.ks15 ++ s.cause ++ BitVec.ofBool s.fault ++
      BitVec.ofBool s.kvalid).extractLsb' start len := rfl

theorem status_getLsbD_zero : s.status.getLsbD 0 = s.kvalid := by
  rw [status_getLsbD, BitVec.getLsbD_append]
  simp

theorem status_getLsbD_one : s.status.getLsbD 1 = s.fault := by
  rw [status_getLsbD, BitVec.getLsbD_append, BitVec.getLsbD_append]
  simp

theorem status_getLsbD_four : s.status.getLsbD 4 = s.ks15 := by
  rw [status_getLsbD]
  iterate 4 rw [BitVec.getLsbD_append]
  simp

theorem status_cause : s.status.extractLsb' 2 2 = s.cause := by
  rw [status_extractLsb', BitVec.extractLsb'_append_eq_of_le (by decide),
    BitVec.extractLsb'_append_eq_of_le (by decide), BitVec.extractLsb'_append_eq_right]

theorem status_hardwired_zeros : s.status.extractLsb' 5 3 = 0#3 := by
  rw [status_extractLsb']
  iterate 3 rw [BitVec.extractLsb'_append_eq_of_le (by decide)]
  exact BitVec.extractLsb'_append_eq_left

/-- After a reset `STATUS` shows the strap alone (R26). -/
theorem applyReset_status : s.applyReset.status = if s.ks15 then 0x10#8 else 0x00#8 := by
  simp only [State.status, applyReset_ks15, applyReset_cause, applyReset_fault, applyReset_kvalid]
  cases s.ks15 <;> rfl

end StatusFields

/-- Every subkey of an engine in its reset state is zero (R26). -/
theorem resetWith_sk_getElem (c : Cfg) (k : KsSteps) (i : Fin 16) :
    (State.resetWith c k).sk[i] = 0#48 := by simp

end Sys2Proof.Machine

namespace Sys2Proof

open Sys2Proof.Machine

/-- Settles O34: each field is read off the concatenation that assembles `STATUS`. -/
theorem statusLayout : Obligations.StatusLayout := by
  intro s
  have hks15 : s.status.getLsbD 4 = true ↔ s.ksSteps.steps = 15 := by
    rw [status_getLsbD_four, ks15_eq_true_iff]
  exact ⟨status_getLsbD_zero s, status_getLsbD_one s, status_cause s, hks15, status_hardwired_zeros s⟩

/-- Settles O13: a reset event ends in `applyReset`, whose `STATUS` depends on the strap alone. -/
theorem resetValues : Obligations.ResetValues := by
  refine ⟨fun s => ⟨s.applyReset, rfl, rfl, rfl, resetWith_sk_getElem s.cfg s.ksSteps, rfl, rfl, rfl, rfl, rfl,
    ?_, ?_⟩, rfl, rfl, resetWith_sk_getElem Cfg.default .sixteen, rfl, rfl, rfl⟩
  · intro h16
    have hks15 : s.ks15 = false := by simp [State.ks15, h16]
    simp [applyReset_status, hks15]
  · intro h15
    have hks15 : s.ks15 = true := (ks15_eq_true_iff s).mpr h15
    simp [applyReset_status, hks15]

end Sys2Proof

/-! # The bytes of a value (20_memory.md)

The byte form of R31 byte by byte and as one number; the byte order of every width, and the round trip of a block,
follow from these rules. -/

namespace Sys2Proof.Machine

/-- Byte `i` of a string is its eight bits from `8 * (k - 1 - i)` on: byte 0 is the most significant (R31). -/
theorem getElem?_toBytes {k i : Nat} (v : BitVec (8 * k)) (hi : i < k) :
    (toBytes k v)[i]? = some (v.extractLsb' (8 * (k - 1 - i)) 8) := by
  induction k generalizing i with
  | zero => omega
  | succ k ih =>
    cases i with
    | zero => rfl
    | succ i =>
      have hik : i < k := by omega
      have hstart : k + 1 - 1 - (i + 1) = k - 1 - i := by omega
      rw [toBytes, List.getElem?_cons_succ, ih _ hik, hstart,
        BitVec.extractLsb'_setWidth_of_le (by omega)]

/-- Position `p` of a string of `k` bytes is bit `7 - (p - 1) % 8` of its byte `(p - 1) / 8` (R31). -/
theorem bitAt_eq_getLsbD_byte {k p : Nat} (v : BitVec (8 * k)) (h1 : 1 ≤ p) (hp : p ≤ 8 * k) :
    bitAt v p = (v.extractLsb' (8 * (k - 1 - (p - 1) / 8)) 8).getLsbD (7 - (p - 1) % 8) := by
  have hindex : 8 * k - 1 - (p - 1) = 8 * (k - 1 - (p - 1) / 8) + (7 - (p - 1) % 8) := by omega
  have hinside : p - 1 < 8 * k := by omega
  have hinByte : 7 - (p - 1) % 8 < 8 := by omega
  rw [bitAt_of_pos v h1, BitVec.getMsbD_eq_getLsbD, BitVec.getLsbD_extractLsb', hindex]
  simp [hinside, hinByte]

/-- The number of a byte in front of others: it weighs `256` to the number of those (R31). -/
theorem numOfBytes_cons (b : Byte) (bs : List Byte) :
    numOfBytes (b :: bs) = b.toNat * 256 ^ bs.length + numOfBytes bs := by
  simpa [numOfBytes] using numOfBytes_append [b] bs

/-- The bytes of a string, read as one big-endian number, are its value (R31). -/
theorem numOfBytes_toBytes (k : Nat) (v : BitVec (8 * k)) : numOfBytes (toBytes k v) = v.toNat := by
  induction k with
  | zero => exact (BitVec.toNat_of_zero_length rfl v).symm
  | succ k ih =>
    have hpow : 256 ^ k = 2 ^ (8 * k) := by rw [pow_mul]; norm_num
    have hbyte : v.toNat / 2 ^ (8 * k) < 2 ^ 8 := by
      apply Nat.div_lt_of_lt_mul
      rw [← pow_add]
      exact v.isLt
    rw [toBytes, numOfBytes_cons, ih, length_toBytes, BitVec.extractLsb'_toNat, BitVec.toNat_setWidth,
      Nat.shiftRight_eq_div_pow, Nat.mod_eq_of_lt hbyte, hpow]
    exact Nat.div_add_mod' _ _

/-- A block's bytes give the block back (R31). -/
@[simp] theorem blockOfBytes_bytesOfBlock (b : Block) : blockOfBytes (bytesOfBlock b) = b := by
  rw [blockOfBytes, bytesOfBlock, numOfBytes_toBytes, BitVec.ofNat_toNat, BitVec.setWidth_eq]

end Sys2Proof.Machine

namespace Sys2Proof

open Sys2Proof.Machine

/-- Settles O41: byte `i` is cut out at its place in the string, and the big-endian number of all the bytes is the
string's value. -/
theorem byteZeroIsMostSignificant : Obligations.ByteZeroIsMostSignificant := by
  refine ⟨fun n v => ⟨length_toBytes n v, ?_, numOfBytes_toBytes n v⟩,
    fun b => ⟨rfl, blockOfBytes_bytesOfBlock b⟩⟩
  intro p h1 hp
  have hbyte : (p - 1) / 8 < n := by omega
  exact ⟨_, getElem?_toBytes v hbyte, bitAt_eq_getLsbD_byte v h1 hp⟩

end Sys2Proof

/-! # The encoding of commands (30_encoding.md)

Decoding and encoding are each other's inverse on the words that decode (R50), so that a decoded word is known field
by field; the rows of R49, the illegal words of R51, the operands of R47, the byte form of R48 and the order of
checks of R50 follow from these rules. -/

namespace Sys2Proof.Machine

section Opcodes

variable {op : Byte}

/-- An opcode is its family and its selector (R45). -/
theorem opcode_eq_of_digits {family sel : Nat} (hf : op.toNat / 16 = family) (hs : op.toNat % 16 = sel) :
    op = BitVec.ofNat 8 (16 * family + sel) := by
  apply BitVec.eq_of_toNat_eq
  rw [BitVec.toNat_ofNat, ← hf, ← hs, Nat.div_add_mod, Nat.mod_eq_of_lt op.isLt]

/-- A format N opcode is its family's first opcode and the index it selects (R46). -/
theorem opcode_eq_add_selIndex {family : Nat} (hf : op.toNat / 16 = family) :
    op = BitVec.ofNat 8 (16 * family) + BitVec.ofNat 8 (selIndex op).val := by
  rw [← BitVec.ofNat_add]
  exact opcode_eq_of_digits hf rfl

/-- A format S or N opcode is the `OP` of the command it names, whose `IMM` is zero (R49). -/
theorem encode_of_decodeOpcode {i : Instr} (h : decodeOpcode op = some i) : encode i = commandWord op 0#64 := by
  unfold decodeOpcode at h
  split at h
  -- the arms of `GETSK` and `ROUND`, the arm of no command, and the arms of one opcode each
  case h_3 hf | h_11 hf => cases h; exact congrArg (commandWord · 0#64) (opcode_eq_add_selIndex hf).symm
  case h_15 => cases h
  all_goals
    rename_i hf hs
    cases h
    exact congrArg (commandWord · 0#64) (opcode_eq_of_digits hf hs).symm

/-- The opcodes that begin no command of any format are those R51 leaves out of its 46: checked for all 256. -/
theorem illegal_opcode_iff :
    op ≠ 0x10#8 ∧ op ≠ 0x11#8 ∧ decodeOpcode op = none ↔
      ¬(op.toNat = 0x00 ∨ op.toNat = 0x10 ∨ op.toNat = 0x11 ∨ op.toNat = 0x20 ∨
        (0x30 ≤ op.toNat ∧ op.toNat ≤ 0x3F) ∨ (0x40 ≤ op.toNat ∧ op.toNat ≤ 0x45) ∨ op.toNat = 0x50 ∨
        (0x60 ≤ op.toNat ∧ op.toNat ≤ 0x6F) ∨ op.toNat = 0x70 ∨ op.toNat = 0x80 ∨ op.toNat = 0x81) := by
  revert op
  decide

end Opcodes

/-! ## Decoding and encoding -/

section Decoding

variable {w : CommandWord} {i : Instr}

/-- The encoder's words decode to the commands they were made from (R49, R50). -/
@[simp] theorem decodeWord_encode (i : Instr) : decodeWord (encode i) = .ok i := by
  cases i with
  | ldkey imm => simp [decodeWord, encode]
  | ldblk imm => simp [decodeWord, encode]
  | getsk n => revert n; decide
  | round n => revert n; decide
  | _ => decide

/-- A word that decodes is the encoding of its command (R50). -/
theorem encode_of_decodeWord (h : decodeWord w = .ok i) : encode i = w := by
  rcases decodeWord_cases w with ⟨hop, hd⟩ | ⟨hop, hd⟩ | ⟨j, hop, himm, hd⟩ | ⟨r, hd⟩
  · cases hd.symm.trans h
    rw [encode, ← hop, commandWord_fields]
  · cases hd.symm.trans h
    rw [encode, ← hop, commandWord_fields]
  · cases hd.symm.trans h
    rw [encode_of_decodeOpcode hop, ← himm, commandWord_fields]
  · cases hd.symm.trans h

/-- A word decodes to a command exactly when it is the command's encoding (R50). -/
theorem decodeWord_eq_ok_iff : decodeWord w = .ok i ↔ encode i = w :=
  ⟨encode_of_decodeWord, fun h => h ▸ decodeWord_encode i⟩

/-- A word is rejected when it has a format S or N opcode that names no command or comes with an `IMM` that is not
zero, and in no other case (R51). -/
theorem decodeWord_eq_error_iff :
    (∃ r, decodeWord w = .error r) ↔
      opField w ≠ 0x10#8 ∧ opField w ≠ 0x11#8 ∧ (decodeOpcode (opField w) = none ∨ immField w ≠ 0#64) := by
  unfold decodeWord
  by_cases hkey : opField w = 0x10#8
  · simp [hkey]
  by_cases hblk : opField w = 0x11#8
  · simp [hblk]
  cases hop : decodeOpcode (opField w) with
  | none => simp [hkey, hblk]
  | some i => by_cases himm : immField w = 0#64 <;> simp [hkey, hblk, himm]

end Decoding

/-! ## The opcode map -/

section OpcodeMap

variable {w : CommandWord} {r : OpcodeRow}

/-- A command's encoding is a word of its own row (R49): the lemmas of Laws/PerInstr.lean for every command. -/
theorem encodesItsRow (i : Instr) : Laws.EncodesItsRow.Statement i := by
  cases i with
  | nop => exact Laws.EncodesItsRow.nop
  | ldkey imm => exact Laws.EncodesItsRow.ldkey imm
  | ldblk imm => exact Laws.EncodesItsRow.ldblk imm
  | ksgen => exact Laws.EncodesItsRow.ksgen
  | getsk n => exact Laws.EncodesItsRow.getsk n
  | permIp => exact Laws.EncodesItsRow.permIp
  | permIpinv => exact Laws.EncodesItsRow.permIpinv
  | permE => exact Laws.EncodesItsRow.permE
  | permP => exact Laws.EncodesItsRow.permP
  | permPc1 => exact Laws.EncodesItsRow.permPc1
  | permPc2 => exact Laws.EncodesItsRow.permPc2
  | subst => exact Laws.EncodesItsRow.subst
  | round n => exact Laws.EncodesItsRow.round n
  | swap => exact Laws.EncodesItsRow.swap
  | enc => exact Laws.EncodesItsRow.enc
  | dec => exact Laws.EncodesItsRow.dec

/-- A word that decodes matches a row with its command's mnemonic (R49). -/
theorem exists_row_of_decodeWord {i : Instr} (h : decodeWord w = .ok i) :
    ∃ r ∈ opcodeMap, r.mnemonic = mnemonicOf i ∧ w &&& r.mask = r.pattern := by
  obtain ⟨r, hr, hmnemonic, hcovers⟩ := encodesItsRow i
  rw [encode_of_decodeWord h] at hcovers
  exact ⟨r, hr, hmnemonic, eq_of_beq hcovers⟩

/-- A word of no row is rejected (R51). -/
theorem decodeWord_error_of_no_row (h : ∀ r ∈ opcodeMap, w &&& r.mask ≠ r.pattern) :
    ∃ e, decodeWord w = .error e := by
  cases hd : decodeWord w with
  | error e => exact ⟨e, rfl⟩
  | ok i =>
    obtain ⟨r, hr, -, hmatch⟩ := exists_row_of_decodeWord hd
    exact absurd hmatch (h r hr)

/-- The `OP` of a word of a row is the row's, under the row's mask (R49). -/
theorem opField_of_match (h : w &&& r.mask = r.pattern) : opField w &&& opField r.mask = opField r.pattern := by
  rw [← h]; exact BitVec.extractLsb'_and.symm

/-- The `IMM` of a word of a row is the row's, under the row's mask (R49). -/
theorem immField_of_match (h : w &&& r.mask = r.pattern) :
    immField w &&& immField r.mask = immField r.pattern := by
  rw [← h]; exact BitVec.extractLsb'_and.symm

/-- The upper four bits of an opcode are its family (R45). -/
theorem toNat_and_F0 : ∀ op : Byte, (op &&& 0xF0#8).toNat = 16 * (op.toNat / 16) := by decide

/-- A word of a row of format S is the row's pattern (R46, R49). -/
theorem pattern_eq_of_formatS (h : w &&& r.mask = r.pattern) (hmask : r.mask = BitVec.allOnes 72) :
    r.pattern = w := by
  rw [← h, hmask, BitVec.and_allOnes]

/-- A word of a row of format I is the row's `OP` with any `IMM` (R46, R49). -/
theorem commandWord_eq_of_formatI {op : Byte} (h : w &&& r.mask = r.pattern)
    (hmask : r.mask = commandWord (BitVec.allOnes 8) 0#64) (hpattern : r.pattern = commandWord op 0#64) :
    commandWord op (immField w) = w := by
  have hop := opField_of_match h
  rw [hmask, hpattern, opField_commandWord, opField_commandWord, BitVec.and_allOnes] at hop
  rw [← hop, commandWord_fields]

/-- A word of a row of format N is the row's first `OP` and an index, with `IMM` zero (R46, R49). -/
theorem exists_index_of_formatN {op : Byte} (h : w &&& r.mask = r.pattern)
    (hmask : r.mask = commandWord 0xF0#8 (BitVec.allOnes 64)) (hpattern : r.pattern = commandWord op 0#64) :
    ∃ n : SubkeyIndex, commandWord (op + BitVec.ofNat 8 n.val) 0#64 = w := by
  have hop := opField_of_match h
  have himm := immField_of_match h
  rw [hmask, hpattern, opField_commandWord, opField_commandWord] at hop
  rw [hmask, hpattern, immField_commandWord, immField_commandWord, BitVec.and_allOnes] at himm
  have hfamily : op = BitVec.ofNat 8 (16 * ((opField w).toNat / 16)) := by
    rw [← hop, ← toNat_and_F0, BitVec.ofNat_toNat, BitVec.setWidth_eq]
  refine ⟨selIndex (opField w), ?_⟩
  rw [hfamily, ← opcode_eq_add_selIndex rfl, ← himm, commandWord_fields]

/-- A word of a row is the encoding of a command with the row's mnemonic (R49). -/
theorem exists_encode_of_match (hr : r ∈ opcodeMap) (h : w &&& r.mask = r.pattern) :
    ∃ i, encode i = w ∧ mnemonicOf i = r.mnemonic := by
  simp only [opcodeMap, List.mem_cons, List.not_mem_nil, or_false] at hr
  obtain rfl | rfl | rfl | rfl | rfl | rfl | rfl | rfl | rfl | rfl | rfl | rfl | rfl | rfl | rfl | rfl := hr
  · exact ⟨.nop, pattern_eq_of_formatS h rfl, rfl⟩
  · exact ⟨.ldkey (immField w), commandWord_eq_of_formatI h rfl rfl, rfl⟩
  · exact ⟨.ldblk (immField w), commandWord_eq_of_formatI h rfl rfl, rfl⟩
  · exact ⟨.ksgen, pattern_eq_of_formatS h rfl, rfl⟩
  · obtain ⟨n, hn⟩ := exists_index_of_formatN (op := 0x30#8) h rfl rfl
    exact ⟨.getsk n, hn, rfl⟩
  · exact ⟨.permIp, pattern_eq_of_formatS h rfl, rfl⟩
  · exact ⟨.permIpinv, pattern_eq_of_formatS h rfl, rfl⟩
  · exact ⟨.permE, pattern_eq_of_formatS h rfl, rfl⟩
  · exact ⟨.permP, pattern_eq_of_formatS h rfl, rfl⟩
  · exact ⟨.permPc1, pattern_eq_of_formatS h rfl, rfl⟩
  · exact ⟨.permPc2, pattern_eq_of_formatS h rfl, rfl⟩
  · exact ⟨.subst, pattern_eq_of_formatS h rfl, rfl⟩
  · obtain ⟨n, hn⟩ := exists_index_of_formatN (op := 0x60#8) h rfl rfl
    exact ⟨.round n, hn, rfl⟩
  · exact ⟨.swap, pattern_eq_of_formatS h rfl, rfl⟩
  · exact ⟨.enc, pattern_eq_of_formatS h rfl, rfl⟩
  · exact ⟨.dec, pattern_eq_of_formatS h rfl, rfl⟩

/-- A word of a row decodes to a command of its mnemonic (R49). -/
theorem exists_decodeWord_of_match (hr : r ∈ opcodeMap) (h : w &&& r.mask = r.pattern) :
    ∃ i, decodeWord w = .ok i ∧ mnemonicOf i = r.mnemonic := by
  obtain ⟨i, hencode, hmnemonic⟩ := exists_encode_of_match hr h
  exact ⟨i, decodeWord_eq_ok_iff.mpr hencode, hmnemonic⟩

/-- The mnemonics of the sixteen rows are distinct (R49). -/
theorem row_eq_of_mnemonic_eq :
    ∀ r ∈ opcodeMap, ∀ r' ∈ opcodeMap, r.mnemonic = r'.mnemonic → r = r' := by decide

/-- A word belongs to one row: it decodes to one command, whose mnemonic names the row (R49). -/
theorem row_eq_of_match {r' : OpcodeRow} (hr : r ∈ opcodeMap) (hr' : r' ∈ opcodeMap)
    (h : w &&& r.mask = r.pattern) (h' : w &&& r'.mask = r'.pattern) : r = r' := by
  obtain ⟨i, hdecode, hmnemonic⟩ := exists_decodeWord_of_match hr h
  obtain ⟨j, hdecode', hmnemonic'⟩ := exists_decodeWord_of_match hr' h'
  cases hdecode.symm.trans hdecode'
  exact row_eq_of_mnemonic_eq r hr r' hr' (hmnemonic.symm.trans hmnemonic')

end OpcodeMap

/-! ## Operands -/

/-- Position `p` of `IMM` is bit `64 - p` of the word (R47). -/
theorem bitAt_imm_eq_getLsbD (op : Byte) (imm : Block) {p : Nat} (h1 : 1 ≤ p) (h64 : p ≤ 64) :
    bitAt imm p = (commandWord op imm).getLsbD (64 - p) := by
  have hinside : p - 1 < 64 := by omega
  have hindex : 64 - 1 - (p - 1) = 64 - p := by omega
  have himm : 64 - p < 64 := by omega
  rw [bitAt_of_pos imm h1, BitVec.getMsbD_eq_getLsbD, commandWord, BitVec.getLsbD_append, hindex]
  simp [hinside, himm]

/-- The index of `GETSK` is bits 67 to 64 of its encoding (R47). -/
theorem encode_getsk_index : ∀ n, ((encode (.getsk n)).extractLsb' 64 4).toNat = n.val := by decide

/-- The index of `ROUND` is bits 67 to 64 of its encoding (R47). -/
theorem encode_round_index : ∀ n, ((encode (.round n)).extractLsb' 64 4).toNat = n.val := by decide

/-! ## The byte form -/

/-- The bytes of a word read back are the word (R48). -/
@[simp] theorem wordOfBytes_wordBytes (w : CommandWord) : wordOfBytes (wordBytes w) = w := by
  rw [wordOfBytes, wordBytes, numOfBytes_toBytes]
  exact (BitVec.ofNat_toNat 72 w).trans (BitVec.setWidth_eq w)

/-- A word's bytes are nine (R48). -/
@[simp] theorem length_wordBytes (w : CommandWord) : (wordBytes w).length = 9 := length_toBytes 9 w

/-- Byte `j` of a word is its bits `71 - 8j` to `64 - 8j` (R48). -/
theorem getElem?_wordBytes (w : CommandWord) {j : Nat} (hj : j < 9) :
    (wordBytes w)[j]? = some (w.extractLsb' (64 - 8 * j) 8) := by
  have hstart : 8 * (9 - 1 - j) = 64 - 8 * j := by omega
  rw [wordBytes, getElem?_toBytes w hj, hstart]

/-- The bytes of a word, with anything behind them, decode as the word does (R48). -/
theorem decodeBytes_wordBytes_append (w : CommandWord) (rest : List Byte) :
    decodeBytes (wordBytes w ++ rest) = (decodeWord w).map (·, rest) := by
  have htake : (wordBytes w ++ rest).take 9 = wordBytes w := List.take_left' (length_wordBytes w)
  have hdrop : (wordBytes w ++ rest).drop 9 = rest := List.drop_left' (length_wordBytes w)
  have hlong : ¬ (wordBytes w ++ rest).length < 9 := by simp
  rw [decodeBytes, if_neg hlong, htake, hdrop, wordOfBytes_wordBytes]
  cases decodeWord w <;> rfl

/-- Fewer than nine bytes are no command (R48). -/
theorem decodeBytes_of_short {bs : List Byte} (h : bs.length < 9) : decodeBytes bs = .error .truncated :=
  if_pos h

/-! ## A command word presented to the engine -/

section Presented

variable {w : CommandWord} {s : State} {i : Instr}

/-- A word that decodes does what its command does (R50). -/
theorem runWord_of_ok (h : decodeWord w = .ok i) (s : State) : runWord w s = exec i s := by
  simp only [runWord, h]

/-- A rejected word does what an illegal word does (R50). -/
theorem runWord_of_error (h : ∃ e, decodeWord w = .error e) (s : State) : runWord w s = illegalCommand s := by
  obtain ⟨e, he⟩ := h
  simp only [runWord, he]

/-- A faulted engine ignores every word, legal or not (R50, R167). -/
theorem runWord_of_fault (h : s.fault = true) (w : CommandWord) : runWord w s = .next s := by
  cases hd : decodeWord w with
  | ok i => rw [runWord_of_ok hd, exec_of_fault h]
  | error e => rw [runWord_of_error ⟨e, hd⟩, illegalCommand, unlessFaulted_of_fault h]

/-- An engine without a fault takes `ILLEGAL_CMD` for a rejected word (R162). -/
theorem runWord_of_illegal (h : ∃ e, decodeWord w = .error e) (hf : s.fault = false) :
    runWord w s = .next (s.raiseFault .illegalCmd) := by
  rw [runWord_of_error h, illegalCommand, unlessFaulted_of_running hf]

/-- The four commands that need subkeys test `KVALID` after `FAULT`, and complete when both tests pass (R50, R163). -/
theorem exec_of_needsSubkeys (h : mnemonicOf i ∈ ["GETSK", "ROUND", "ENC", "DEC"]) :
    ∃ run : State → State, ∀ s, exec i s = unlessFaulted s fun s => withSubkeys s fun s => .next (run s) := by
  cases i with
  | getsk n => exact ⟨_, fun _ => rfl⟩
  | round n => exact ⟨_, fun _ => rfl⟩
  | enc => exact ⟨_, fun _ => rfl⟩
  | dec => exact ⟨_, fun _ => rfl⟩
  | _ => simp [mnemonicOf] at h

/-- The other commands test `FAULT` alone and complete when it is 0 (R50). -/
theorem exec_of_needsNoSubkeys (h : mnemonicOf i ∉ ["GETSK", "ROUND", "ENC", "DEC"]) :
    ∃ run : State → State, ∀ s, exec i s = unlessFaulted s fun s => .next (run s) := by
  cases i with
  | nop => exact ⟨id, fun s => (ite_self (c := s.fault = true) (.next s : Result)).symm⟩
  | getsk n => simp [mnemonicOf] at h
  | round n => simp [mnemonicOf] at h
  | enc => simp [mnemonicOf] at h
  | dec => simp [mnemonicOf] at h
  | _ => exact ⟨_, fun _ => rfl⟩

/-- Without valid subkeys the four commands that need them take `SUBKEYS_NOT_READY` (R163). -/
theorem exec_of_subkeysNotReady (h : mnemonicOf i ∈ ["GETSK", "ROUND", "ENC", "DEC"]) (hf : s.fault = false)
    (hk : s.kvalid = false) : exec i s = .next (s.raiseFault .subkeysNotReady) := by
  obtain ⟨run, hrun⟩ := exec_of_needsSubkeys h
  rw [hrun, unlessFaulted_of_running hf, withSubkeys_of_invalid hk]

/-- Every command completes in every state (R187). -/
theorem exec_completes (i : Instr) (s : State) : ∃ t, exec i s = .next t := by
  cases hf : s.fault with
  | true => exact ⟨s, exec_of_fault hf i⟩
  | false =>
    by_cases hi : mnemonicOf i ∈ ["GETSK", "ROUND", "ENC", "DEC"]
    · cases hk : s.kvalid with
      | true =>
        obtain ⟨run, hrun⟩ := exec_of_needsSubkeys hi
        exact ⟨run s, by rw [hrun, unlessFaulted_of_running hf, withSubkeys_of_valid hk]⟩
      | false => exact ⟨_, exec_of_subkeysNotReady hi hf hk⟩
    · obtain ⟨run, hrun⟩ := exec_of_needsNoSubkeys hi
      exact ⟨run s, by rw [hrun, unlessFaulted_of_running hf]⟩

/-- A command raises no fault when the subkeys it needs are valid (R163). -/
theorem exec_fault_of_ready {t : State} (h : exec i s = .next t) (hf : s.fault = false)
    (hready : mnemonicOf i ∈ ["GETSK", "ROUND", "ENC", "DEC"] → s.kvalid = true) : t.fault = false := by
  rcases exec_cases h hf with ⟨-, rfl⟩ | ⟨k, -, rfl⟩ | ⟨-, rfl⟩ | ⟨-, -, -, b, rfl⟩ | ⟨hi, hk, -⟩
  · exact hf
  · simpa using hf
  · simpa using hf
  · simpa using hf
  · have hneeds : mnemonicOf i ∈ ["GETSK", "ROUND", "ENC", "DEC"] := by
      rcases hi with ⟨n, rfl⟩ | ⟨n, rfl⟩ | rfl | rfl <;> simp [mnemonicOf]
    exact absurd (hready hneeds) (by simp [hk])

end Presented

end Sys2Proof.Machine

namespace Sys2Proof

open Sys2Proof.Machine

/-- Settles O3: decoding inverts encoding and each row's words are the encodings of its commands; two rows that share
a word name the one command it decodes to. -/
theorem decodeFollowsOpcodeMap : Obligations.DecodeFollowsOpcodeMap :=
  fun _ => ⟨fun _ => exists_row_of_decodeWord, fun _ => exists_decodeWord_of_match,
    fun _ hr _ hr' => row_eq_of_match hr hr'⟩

/-- Settles O4: a word is rejected for its opcode or for its `IMM`, and a rejected word raises `ILLEGAL_CMD`. -/
theorem illegalWordsByOpcode : Obligations.IllegalWordsByOpcode := by
  rintro w s op rfl
  have hkey : (opField w).toNat ≠ 0x10 ↔ opField w ≠ 0x10#8 := BitVec.toNat_ne_iff_ne (y := 0x10#8)
  have hblk : (opField w).toNat ≠ 0x11 ↔ opField w ≠ 0x11#8 := BitVec.toNat_ne_iff_ne (y := 0x11#8)
  have himm := and_congr hkey (and_congr_left' (c := immField w ≠ 0#64) hblk)
  refine ⟨(or_congr (illegal_opcode_iff (op := opField w)).symm himm).trans ?_,
    fun hreject hf => runWord_of_illegal hreject hf⟩
  rw [decodeWord_eq_error_iff, and_or_left, and_or_left]

/-- Settles O5: a decoded word is its command's encoding, whose fields are the operands. -/
theorem decodedOperandsAreFieldsOfTheWord : Obligations.DecodedOperandsAreFieldsOfTheWord := by
  intro w
  refine ⟨?_, ?_, ?_, ?_⟩
  · intro k hk p h1 h64
    rw [← encode_of_decodeWord hk]
    exact bitAt_imm_eq_getLsbD 0x10#8 k h1 h64
  · intro b hb p h1 h64
    rw [← encode_of_decodeWord hb]
    exact bitAt_imm_eq_getLsbD 0x11#8 b h1 h64
  · intro n hn
    rw [← encode_of_decodeWord hn, encode_getsk_index]
  · intro n hn
    rw [← encode_of_decodeWord hn, encode_round_index]

/-- Settles O6: the byte form is cut out of the word byte by byte and reads back as the word. -/
theorem byteFormIsOpFirst : Obligations.ByteFormIsOpFirst := by
  refine ⟨fun w rest => ⟨length_wordBytes w, fun j hj => getElem?_wordBytes w hj, fun i => ?_⟩,
    fun bs hshort => decodeBytes_of_short hshort, by decide, by decide⟩
  rw [decodeBytes_wordBytes_append]
  cases decodeWord w <;> simp [Except.map]

/-- Settles O10: `FAULT` is tested before the word is decoded, legality by decoding, `KVALID` by the command. -/
theorem checksAreMadeInOrder : Obligations.ChecksAreMadeInOrder := by
  intro w s
  refine ⟨fun hf => runWord_of_fault hf w, fun hf hrow => runWord_of_illegal (decodeWord_error_of_no_row hrow) hf,
    ?_, ?_⟩
  · intro i hf hdecode hneeds hk
    rw [runWord_of_ok hdecode]
    exact exec_of_subkeysNotReady hneeds hf hk
  · intro i hf hdecode hready
    obtain ⟨t, ht⟩ := exec_completes i s
    exact ⟨t, (runWord_of_ok hdecode s).trans ht, ht, exec_fault_of_ready ht hf hready⟩

end Sys2Proof

/-! # The bit permutation multiplexer (40_permute.md)

Which input position an output bit is wired to, for any table (R61); R62's precondition then names it as an input
bit. -/

namespace Sys2Proof.Machine

/-- Output bit `i` is wired to the position entry `i` names, whatever that entry is (R61, R65). -/
theorem getMsbD_permute {n m i : Nat} (v : BitVec n) (t : Vector Nat m) (hi : i < m) :
    (permute v t).getMsbD i = bitAt v t[i] := by
  have hposition := bitAt_permute v t (Nat.le_add_left 1 i) (Nat.succ_le_of_lt hi)
  simpa only [bitAt_succ, Nat.add_sub_cancel] using hposition

end Sys2Proof.Machine

namespace Sys2Proof

open Sys2Proof.Machine

/-- Settles O42: output bit `i` is wired to position `t[i]`, and a position from 1 on is bit `t[i] - 1`. -/
theorem permuteSelectsTableBits : Obligations.PermuteSelectsTableBits := by
  intro n m v t hfits i hi
  obtain ⟨hpos, -⟩ := hfits i hi
  calc (permute v t).getMsbD i = bitAt v t[i] := getMsbD_permute v t hi
    _ = v.getMsbD (t[i] - 1) := bitAt_of_pos v hpos

end Sys2Proof

/-! # The S-box substitution pipeline (41_sbox.md)

The row, the column and the group of R76 in positions of the input, and where each looked-up nibble stands in the
output; `SUBST` applies them to the leading 48 positions of `BLK` (R80). -/

namespace Sys2Proof.Machine

/-- The leading positions of `BLK` keep their numbers in the operand (R34). -/
theorem bitAt_blkTop (s : State) {n p : Nat} (h1 : 1 ≤ p) (hp : p ≤ n) (hn : n ≤ 64) :
    bitAt (s.blkTop n) p = bitAt s.blk p := by
  rw [State.blkTop, bitAt_substr s.blk (Nat.le_refl 1) h1 hp (by omega), Nat.add_sub_cancel_left]

/-- Position `q` of group `g` is position `6g + q` of the input (R76, R77). -/
theorem bitAt_sboxGroup (x : BitVec 48) (g : Fin 8) {q : Nat} (h1 : 1 ≤ q) (hq : q ≤ 6) :
    bitAt (sboxGroup x g) q = bitAt x (6 * g.val + q) := by
  have hstart : 6 * g.val + 1 + q - 1 = 6 * g.val + q := by omega
  rw [sboxGroup, bitAt_substr x (by omega) h1 hq (by omega), hstart]

/-- The row of a group is `2 * grp{1} + grp{6}`, which needs no reduction (R76). -/
theorem sboxRow_val (grp : BitVec 6) :
    (sboxRow grp).val = 2 * (bitAt grp 1).toNat + (bitAt grp 6).toNat := by
  have hfirst := Bool.toNat_le (bitAt grp 1)
  have hsixth := Bool.toNat_le (bitAt grp 6)
  exact Nat.mod_eq_of_lt (by omega)

/-- A four-bit number is the sum of its weighted positions, position 1 weighing 8 (R77): checked for all 16. -/
theorem toNat_eq_sum_bitAt : ∀ v : BitVec 4,
    v.toNat = 8 * (bitAt v 1).toNat + 4 * (bitAt v 2).toNat + 2 * (bitAt v 3).toNat + (bitAt v 4).toNat := by
  decide

/-- The column of a group is the number of its middle four positions, the first of them weighing 8 (R76). -/
theorem sboxCol_val (grp : BitVec 6) :
    (sboxCol grp).val = 8 * (bitAt grp 2).toNat + 4 * (bitAt grp 3).toNat + 2 * (bitAt grp 4).toNat +
      (bitAt grp 5).toNat := by
  have hmiddle {q : Nat} (h1 : 1 ≤ q) (hq : q ≤ 4) : bitAt (substr grp 2 4) q = bitAt grp (2 + q - 1) :=
    bitAt_substr grp (by decide) h1 hq (by decide)
  calc (sboxCol grp).val = (substr grp 2 4).toNat := Nat.mod_eq_of_lt (substr grp 2 4).isLt
    _ = _ := by rw [toNat_eq_sum_bitAt, hmiddle, hmiddle, hmiddle, hmiddle] <;> decide

/-- A nibble cut out in front of the last one is cut out of what that one was appended to. -/
theorem extractLsb'_append_nibble {n k : Nat} (front : BitVec n) (last : BitVec 4) :
    (front ++ last).extractLsb' (k + 4) 4 = front.extractLsb' k 4 := by
  rw [BitVec.extractLsb'_append_eq_of_le (Nat.le_add_left 4 k), Nat.add_sub_cancel]

/-- Nibble `g` stands at output positions `4g + 1` to `4g + 4` (R76): without the nibbles behind it, it is the last
one. -/
theorem extractLsb'_substitute (c : Cfg) (x : BitVec 48) (g : Fin 8) :
    (substitute c x).extractLsb' (28 - 4 * g.val) 4 = substituteNibble c x g := by
  have hlast {n : Nat} (front : BitVec n) (last : BitVec 4) : (front ++ last).extractLsb' 0 4 = last :=
    BitVec.extractLsb'_append_eq_right
  unfold substitute
  fin_cases g <;> simp [extractLsb'_append_nibble, hlast]

/-- `SUBST` on an engine without a fault writes the substituted operand, left aligned, and nothing else (R80). -/
theorem exec_subst_of_running {s : State} (hf : s.fault = false) :
    exec .subst s = .next { s with blk := (substitute s.cfg (s.blkTop 48) ++ 0#32 : BitVec 64) } := by
  rw [exec, execSubst, unlessFaulted_of_running hf, State.setBlkTop, pad64_32]
  rfl

end Sys2Proof.Machine

namespace Sys2Proof

open Sys2Proof.Machine

/-- Settles O25: the row and the column of group `g` are read off `BLK`, and the looked-up nibble is the one cut out
of the output. -/
theorem substLooksUpEightGroups : Obligations.SubstLooksUpEightGroups := by
  intro s hf
  refine ⟨substitute s.cfg (s.blkTop 48), exec_subst_of_running hf, fun g row col hrow hcol => ?_⟩
  have hbit {q : Nat} (h1 : 1 ≤ q) (hq : q ≤ 6) :
      bitAt (sboxGroup (s.blkTop 48) g) q = bitAt s.blk (6 * g.val + q) := by
    rw [bitAt_sboxGroup _ g h1 hq, bitAt_blkTop s (by omega) (by omega) (by decide)]
  have hrowOf : sboxRow (sboxGroup (s.blkTop 48) g) = row := by
    apply Fin.ext
    rw [sboxRow_val, hrow, hbit, hbit] <;> decide
  have hcolOf : sboxCol (sboxGroup (s.blkTop 48) g) = col := by
    apply Fin.ext
    rw [sboxCol_val, hcol, hbit, hbit, hbit, hbit] <;> decide
  subst hrowOf hcolOf
  exact extractLsb'_substitute s.cfg (s.blkTop 48) g

end Sys2Proof

/-! # The key schedule (42_keyschedule.md)

The rotation of a 28-bit half is the library's rotation to the left (R85), and a key state is rotated half by half
(R86); the key states and the subkeys of `KSGEN` follow step by step (R87, R91). -/

namespace Sys2Proof.Machine

section Rotation

variable (h : BitVec 28) (s : Nat)

/-- The leading positions of a rotated half are the input from position `s mod 28 + 1` on (R85). -/
theorem bitAt_rotl28_leading {p : Nat} (h1 : 1 ≤ p) (hp : p ≤ 28 - s % 28) :
    bitAt (rotl28 h s) p = bitAt h (s % 28 + p) := by
  have hsource : (p - 1 + s) % 28 + 1 = s % 28 + p := by omega
  rw [bitAt_rotl28 h s h1 (by omega), hsource]

/-- The trailing positions of a rotated half are the input's first `s mod 28`, come around (R85). -/
theorem bitAt_rotl28_trailing {p : Nat} (hp : 28 - s % 28 < p) (h28 : p ≤ 28) :
    bitAt (rotl28 h s) p = bitAt h (p - (28 - s % 28)) := by
  have hsource : (p - 1 + s) % 28 + 1 = p - (28 - s % 28) := by omega
  rw [bitAt_rotl28 h s (by omega) h28, hsource]

/-- The engine's rotation is the library's (R85). -/
theorem rotl28_eq_rotateLeft : rotl28 h s = h.rotateLeft s := by
  apply eq_of_bitAt_eq
  intro p h1 h28
  have hinside : p - 1 < 28 := by omega
  calc bitAt (rotl28 h s) p = h.getMsbD ((p - 1 + s) % 28) := bitAt_rotl28 h s h1 h28
    _ = (h.rotateLeft s).getMsbD (p - 1) := by
      rw [BitVec.getMsbD_rotateLeft, decide_eq_true hinside, Bool.true_and, Nat.add_comm]
    _ = bitAt (h.rotateLeft s) p := (bitAt_of_pos _ h1).symm

/-- A whole turn, or several, makes no difference to a rotation (R85). -/
theorem rotl28_eq_rotateLeft_mod : rotl28 h s = h.rotateLeft (s % 28) :=
  (rotl28_eq_rotateLeft h s).trans BitVec.rotateLeft_mod_eq_rotateLeft.symm

/-- A rotation by no position changes nothing (R85). -/
@[simp] theorem rotl28_zero : rotl28 h 0 = h := by
  apply eq_of_bitAt_eq
  intro p h1 h28
  rw [bitAt_rotl28_leading h 0 h1 h28, Nat.zero_mod, Nat.zero_add]

/-- No bit of a key state crosses the boundary of its halves (R86). -/
theorem rotateHalves_append (l r : BitVec 28) :
    rotateHalves (l ++ r : BitVec 56) s = (rotl28 l s ++ rotl28 r s : BitVec 56) := by
  have hleft : substr (l ++ r : BitVec 56) 1 28 = l := BitVec.extractLsb'_append_eq_left
  have hright : substr (l ++ r : BitVec 56) 29 28 = r := BitVec.extractLsb'_append_eq_right
  rw [rotateHalves, hleft, hright]

end Rotation

/-- Each key state is the one before it, rotated by its own entry of `CFG.SHIFT` (R87). -/
theorem keyState_succ (c : Cfg) (key : Block) (i : Fin 16) :
    keyState c key (i.val + 1) = rotateHalves (keyState c key i.val) c.shift[i] := by
  have hentry : c.shift.toList.getD i.val 0 = c.shift[i] := by
    rw [List.getD_eq_getElem _ _ (by simp)]
    simp
  rw [keyState, hentry]

/-- `KSGEN` on an engine without a fault writes `SK` and `KVALID` and nothing else (R91). -/
theorem exec_ksgen_of_running {s : State} (hf : s.fault = false) :
    exec .ksgen s = .next { s with sk := generateSubkeys s.cfg s.ksSteps s.key, kvalid := true } := by
  rw [exec, execKsgen, unlessFaulted_of_running hf]
  rfl

end Sys2Proof.Machine

namespace Sys2Proof

open Sys2Proof.Machine

/-- Settles O44: the two ranges are where `(p - 1 + s) mod 28` has not and has wrapped around. -/
theorem rotationIsLeftCircular : Obligations.RotationIsLeftCircular :=
  fun h s => ⟨fun _ => bitAt_rotl28 h s, fun _ => bitAt_rotl28_leading h s, fun _ => bitAt_rotl28_trailing h s,
    rotl28_eq_rotateLeft_mod h s, rotl28_zero h⟩

/-- Settles O45: the halves cut out of `l ++ r` are `l` and `r`; the example is evaluated. -/
theorem halvesRotateIndependently : Obligations.HalvesRotateIndependently := by
  refine ⟨fun l r s => ?_, by decide⟩
  rw [rotateHalves_append, rotl28_eq_rotateLeft_mod, rotl28_eq_rotateLeft_mod]

/-- Settles O20: the chain is `keyState` of the engine's tables and key, whose states `generateSubkeys` puts through
`PC2`. -/
theorem ksgenDerivesSubkeysFromStateChain : Obligations.KsgenDerivesSubkeysFromStateChain :=
  fun s hf => ⟨keyState s.cfg s.key, generateSubkeys s.cfg s.ksSteps s.key, rfl, keyState_succ s.cfg s.key,
    fun i => getElem_generateSubkeys s.cfg s.ksSteps s.key i.val i.isLt, exec_ksgen_of_running hf⟩

end Sys2Proof

/-! # The Feistel round and the half swap (43_round.md)

The halves of `L ‖ R` are `L` and `R` (R100), so a round and a swap act on a block written in its halves; `SWAP`
writes the exchanged halves to `BLK` and nothing else (R105). -/

namespace Sys2Proof.Machine

/-! ## Blocks in their halves -/

/-- A round keeps the right half as the new left one, and complements the left half it combines with (R101). -/
theorem feistelRound_append (c : Cfg) (l r : Half) (k : Subkey) :
    feistelRound c (l ++ r : BitVec 64) k = (r ++ (roundFunction c r k ^^^ ~~~l) : BitVec 64) := by
  change feistelRound c (joinHalves l r) k = joinHalves r (roundFunction c r k ^^^ ~~~l)
  rw [feistelRound, leftHalf_joinHalves, rightHalf_joinHalves]

/-- A swap exchanges the halves (R103). -/
theorem swapHalves_append (l r : Half) : swapHalves (l ++ r : BitVec 64) = (r ++ l : BitVec 64) := by
  change swapHalves (joinHalves l r) = joinHalves r l
  rw [swapHalves, leftHalf_joinHalves, rightHalf_joinHalves]

/-- A swap is its own inverse (R103). -/
@[simp] theorem swapHalves_swapHalves (b : Block) : swapHalves (swapHalves b) = b :=
  eq_of_halves (by simp) (by simp)

/-! ## `SWAP` -/

/-- `SWAP` on an engine without a fault writes `BLK` and nothing else (R105). -/
theorem exec_swap_of_running {s : State} (hf : s.fault = false) :
    exec .swap s = .next (s.setBlk (swapHalves s.blk)) := by
  rw [exec, execSwap, unlessFaulted_of_running hf]

/-- Two `SWAP`s restore the state (R105): a running engine gets its `BLK` back, a faulted one ignores both. -/
theorem execAll_swap_swap (s : State) : execAll [.swap, .swap] s = .next s := by
  cases hf : s.fault with
  | true => rw [execAll_cons (exec_of_fault hf _), execAll_cons (exec_of_fault hf _), execAll]
  | false =>
    have hf' : (s.setBlk (swapHalves s.blk)).fault = false := hf
    rw [execAll_cons (exec_swap_of_running hf), execAll_cons (exec_swap_of_running hf'), execAll, setBlk_blk,
      swapHalves_swapHalves]
    rfl

end Sys2Proof.Machine

namespace Sys2Proof

open Sys2Proof.Machine

/-- Settles O49: the complement of one operand of an exclusive or is the complement of the result. -/
theorem roundComplementsLeftHalf : Obligations.RoundComplementsLeftHalf := by
  intro c l r k
  have hround := feistelRound_append c l r k
  have hcomplement : roundFunction c r k ^^^ ~~~l = ~~~(roundFunction c r k ^^^ l) :=
    BitVec.not_xor_right.symm
  exact ⟨hround, hround.trans (congrArg (r ++ ·) hcomplement)⟩

/-- Settles O27: the halves of a swapped block are the exchanged ones, in `BLK` as in any block. -/
theorem swapExchangesHalves : Obligations.SwapExchangesHalves := by
  refine ⟨swapHalves_append, swapHalves_swapHalves, fun s l r hf hblk => ?_, execAll_swap_swap⟩
  rw [exec_swap_of_running hf, hblk, swapHalves_append]
  rfl

end Sys2Proof

/-! # The block processor (44_block.md)

`ENC` and `DEC` write the end of one chain of sixteen rounds, with two orders of the subkeys (R110, R111). Swapped,
the block after a round goes back through the same round, so the chain taken with the reversed keys undoes itself
(R106, R117); the two permutations around it cancel for any tables that pass the checks of R140. -/

namespace Sys2Proof.Machine

/-! ## The permutations around the rounds -/

/-- Tables wired against each other cancel: output bit `i` of the second comes from input bit `i` of the first. -/
theorem permute_permute_of_inverse {n m : Nat} {t : Vector Nat m} {u : Vector Nat n} (v : BitVec n)
    (hu : entriesWithin m u = true)
    (hinv : ∀ i, i < n → t.toList.getD (u.toList.getD i 0 - 1) 0 = i + 1) : permute (permute v t) u = v := by
  refine eq_of_bitAt_eq fun p h1 hp => ?_
  have hi : p - 1 < n := by omega
  obtain ⟨hpos, hle⟩ := entriesWithin_getElem hu (p - 1) hi
  have hj : u[p - 1] - 1 < m := by omega
  have hentry : t[u[p - 1] - 1] = p := by
    have h := hinv (p - 1) hi
    rw [List.getD_eq_getElem u.toList 0 (by simpa using hi), Vector.getElem_toList,
      List.getD_eq_getElem t.toList 0 (by simpa using hj), Vector.getElem_toList] at h
    omega
  rw [bitAt_permute _ u h1 hp, bitAt_permute v t hpos hle, hentry]

section InversePermutations

variable {c : Cfg}

/-- `IPINV` undoes `IP` on an engine that exists (R72 (c), R140). -/
theorem permute_ipinv_permute_ip (hc : c.wellFormed = true) (b : Block) :
    permute (permute b c.ip) c.ipinv = b := by
  obtain ⟨-, -, hipinv, hinv, -⟩ := Cfg.wellFormed_parts hc
  exact permute_permute_of_inverse b hipinv hinv

/-- `IP` undoes `IPINV` (R72 (c)): there are finitely many blocks, so a left inverse is a right inverse. -/
theorem permute_ip_permute_ipinv (hc : c.wellFormed = true) (b : Block) :
    permute (permute b c.ipinv) c.ip = b := by
  have hleft : Function.LeftInverse (fun x : Block => permute x c.ipinv) (fun x => permute x c.ip) :=
    permute_ipinv_permute_ip hc
  have hsurjective : Function.Surjective fun x : Block => permute x c.ip :=
    Finite.injective_iff_surjective.mp hleft.injective
  exact hleft.rightInverse_of_surjective hsurjective b

end InversePermutations

/-! ## The round chain backwards -/

/-- A round of the swapped block after a round gives the swapped block before it: both add the same value of the
round function, and both complement (R102, R106). -/
theorem feistelRound_swapHalves_feistelRound (c : Cfg) (b : Block) (k : Subkey) :
    feistelRound c (swapHalves (feistelRound c b k)) k = swapHalves b := by
  have hcancel : ∀ f l : Half, f ^^^ ~~~(f ^^^ ~~~l) = l := by
    intro f l
    rw [← BitVec.not_xor_right, ← BitVec.xor_assoc, BitVec.xor_self, BitVec.zero_xor, BitVec.not_not]
  exact eq_of_halves (by simp) (by simp [hcancel])

/-- The chain with the keys reversed takes the swapped end back to the swapped start (R117). -/
theorem blockAfter_swapHalves_blockAfter_of_reversed (c : Cfg) (k : Nat → Subkey) (x : Block) (n : Nat) :
    ∀ k' : Nat → Subkey, (∀ i, i < n → k' i = k (n - 1 - i)) →
      blockAfter c k' (swapHalves (blockAfter c k x n)) n = swapHalves x := by
  induction n with
  | zero => exact fun _ _ => rfl
  | succ n ih =>
    intro k' hk
    have hfirst : k' 0 = k n := hk 0 n.succ_pos
    have hrest : ∀ i, i < n → k' (i + 1) = k (n - 1 - i) := fun i hi => by
      rw [hk (i + 1) (by omega)]
      congr 1
      omega
    rw [blockAfter_succ', hfirst, blockAfter, feistelRound_swapHalves_feistelRound]
    exact ih _ hrest

/-- The block processor with the keys reversed undoes the block processor (R117). -/
theorem cipherBlock_cipherBlock_of_reversed {c : Cfg} {k k' : Nat → Subkey} (hc : c.wellFormed = true)
    (hk : ∀ i, i < 16 → k' i = k (15 - i)) (b : Block) : cipherBlock c k' (cipherBlock c k b) = b := by
  have hchain := blockAfter_swapHalves_blockAfter_of_reversed c k (permute b c.ip) 16 k' hk
  calc cipherBlock c k' (cipherBlock c k b)
      = permute (swapHalves (blockAfter c k'
          (swapHalves (blockAfter c k (permute b c.ip) 16)) 16)) c.ipinv := by
        rw [cipherBlock, cipherBlock, permute_ip_permute_ipinv hc]
    _ = permute (permute b c.ip) c.ipinv := by rw [hchain, swapHalves_swapHalves]
    _ = b := permute_ipinv_permute_ip hc b

/-! ## `ENC` and `DEC` -/

/-- The chain of blocks between the two permutations, with the subkeys named by round (R110, R111, R112). -/
theorem exists_chain_cipherBlock (c : Cfg) (k : Nat → Subkey) (ks : Fin 16 → Subkey)
    (hk : ∀ i : Fin 16, k i.val = ks i) (b : Block) :
    ∃ x : Nat → Block, x 0 = permute b c.ip ∧
      (∀ i : Fin 16, x (i.val + 1) = feistelRound c (x i.val) (ks i)) ∧
      cipherBlock c k b = permute (swapHalves (x 16)) c.ipinv :=
  ⟨blockAfter c k (permute b c.ip), rfl, fun i => by rw [blockAfter, hk i], rfl⟩

section Commands

variable {s : State}

/-- `ENC` on an engine with valid subkeys writes `BLK` and nothing else (R114). -/
theorem exec_enc_of_ready (hf : s.fault = false) (hk : s.kvalid = true) :
    exec .enc s = .next (s.setBlk (encryptBlock s.cfg s.sk s.blk)) := by
  rw [exec, execEnc, unlessFaulted_of_running hf, withSubkeys_of_valid hk]

/-- `DEC` on an engine with valid subkeys writes `BLK` and nothing else (R115). -/
theorem exec_dec_of_ready (hf : s.fault = false) (hk : s.kvalid = true) :
    exec .dec s = .next (s.setBlk (decryptBlock s.cfg s.sk s.blk)) := by
  rw [exec, execDec, unlessFaulted_of_running hf, withSubkeys_of_valid hk]

end Commands

/-! ## Encryption and decryption undo each other -/

section RoundTrip

variable {c : Cfg} (hc : c.wellFormed = true) (sk : SubkeyStore) (b : Block)

include hc

/-- Decryption undoes encryption (R117). -/
theorem decryptBlock_encryptBlock : decryptBlock c sk (encryptBlock c sk b) = b :=
  cipherBlock_cipherBlock_of_reversed hc (fun _ _ => rfl) b

/-- Encryption undoes decryption (R117): reversing the reversed order gives the natural one. -/
theorem encryptBlock_decryptBlock : encryptBlock c sk (decryptBlock c sk b) = b :=
  have hreversed : ∀ i, i < 16 → 15 - (15 - i) = i := fun _ hi => Nat.sub_sub_self (Nat.le_of_lt_succ hi)
  cipherBlock_cipherBlock_of_reversed hc (fun i hi => congrArg (fun j => sk[Fin.ofNat 16 j]) (hreversed i hi).symm) b

end RoundTrip

end Sys2Proof.Machine

namespace Sys2Proof

open Sys2Proof.Machine

/-- Settles O28: round `i` of the chain of `encryptBlock` uses entry `i` of the store. -/
theorem encRunsRoundsInNaturalOrder : Obligations.EncRunsRoundsInNaturalOrder := by
  intro s hf hk
  have hkeys : ∀ i : Fin 16, s.sk[Fin.ofNat 16 i.val] = s.sk[i] := fun i =>
    congrArg (fun j : Fin 16 => s.sk[j]) (Fin.ofNat_val_eq_self i)
  obtain ⟨x, hstart, hround, hend⟩ := exists_chain_cipherBlock s.cfg (fun i => s.sk[Fin.ofNat 16 i])
    (fun i => s.sk[i]) hkeys s.blk
  refine ⟨x, hstart, hround, ?_⟩
  rw [exec_enc_of_ready hf hk, encryptBlock, hend]
  rfl

/-- Settles O29: round `i` of the chain of `decryptBlock` uses entry `15 - i`, which is `i.rev`. -/
theorem decRunsRoundsInReverseOrder : Obligations.DecRunsRoundsInReverseOrder := by
  intro s hf hk
  have hrev : ∀ i : Fin 16, Fin.ofNat 16 (15 - i.val) = i.rev := by decide
  have hkeys : ∀ i : Fin 16, s.sk[Fin.ofNat 16 (15 - i.val)] = s.sk[i.rev] := fun i =>
    congrArg (fun j : Fin 16 => s.sk[j]) (hrev i)
  obtain ⟨x, hstart, hround, hend⟩ := exists_chain_cipherBlock s.cfg (fun i => s.sk[Fin.ofNat 16 (15 - i)])
    (fun i => s.sk[i.rev]) hkeys s.blk
  refine ⟨x, hstart, hround, ?_⟩
  rw [exec_dec_of_ready hf hk, decryptBlock, hend]
  rfl

/-- Settles O51: decryption takes the subkeys in the reverse of encryption's order, and encryption in the reverse
of decryption's. -/
theorem decryptionInvertsEncryption : Obligations.DecryptionInvertsEncryption :=
  fun _ sk b hc => ⟨decryptBlock_encryptBlock hc sk b, encryptBlock_decryptBlock hc sk b⟩

end Sys2Proof

/-! # The host's side (45_host_stream.md)

The block stream in both directions and the bit text of a ciphertext. Eight bytes make a block and the block gives
them back (R33), so an input can be followed eight bytes at a time through padding (R126) and through the check of
whole blocks (R129); bit text is the bits of the bytes, one character a bit (R132). -/

namespace Sys2Proof.Machine

/-! ## Blocks of bytes -/

/-- A number of `n` bytes is less than `256` to the `n` (R31). -/
theorem numOfBytes_lt (bs : List Byte) : numOfBytes bs < 256 ^ bs.length := by
  induction bs with
  | nil => decide
  | cons b bs ih =>
    have hb : b.toNat + 1 ≤ 256 := b.isLt
    calc numOfBytes (b :: bs) < (b.toNat + 1) * 256 ^ bs.length := by rw [numOfBytes_cons, Nat.succ_mul]; omega
      _ ≤ 256 * 256 ^ bs.length := Nat.mul_le_mul_right _ hb
      _ = 256 ^ (b :: bs).length := (Nat.pow_succ' ..).symm

/-- The bytes of the string whose number is that of `k` listed bytes are those bytes (R31). -/
theorem toBytes_numOfBytes {k : Nat} (bs : List Byte) (h : bs.length = k) :
    toBytes k (BitVec.ofNat (8 * k) (numOfBytes bs)) = bs := by
  induction bs generalizing k with
  | nil => subst h; rfl
  | cons b bs ih =>
    subst h
    have hpow : 256 ^ bs.length = 2 ^ (8 * bs.length) := by rw [pow_mul]; norm_num
    have hlt : numOfBytes bs < 2 ^ (8 * bs.length) := hpow ▸ numOfBytes_lt bs
    have hnum : numOfBytes (b :: bs) = 2 ^ (8 * bs.length) * b.toNat + numOfBytes bs := by
      rw [numOfBytes_cons, hpow, Nat.mul_comm]
    have hfits : numOfBytes (b :: bs) < 2 ^ (8 * (b :: bs).length) := by
      rw [pow_mul]; exact numOfBytes_lt (b :: bs)
    have hfirst : (BitVec.ofNat (8 * (b :: bs).length) (numOfBytes (b :: bs))).extractLsb' (8 * bs.length) 8 = b := by
      apply BitVec.eq_of_toNat_eq
      rw [BitVec.extractLsb'_toNat, BitVec.toNat_ofNat, Nat.mod_eq_of_lt hfits, hnum, Nat.shiftRight_eq_div_pow,
        Nat.mul_add_div (Nat.two_pow_pos _), Nat.div_eq_of_lt hlt, Nat.add_zero, Nat.mod_eq_of_lt b.isLt]
    have hrest : (BitVec.ofNat (8 * (b :: bs).length) (numOfBytes (b :: bs))).setWidth (8 * bs.length) =
        BitVec.ofNat (8 * bs.length) (numOfBytes bs) := by
      apply BitVec.eq_of_toNat_eq
      rw [BitVec.toNat_setWidth, BitVec.toNat_ofNat, BitVec.toNat_ofNat, Nat.mod_eq_of_lt hfits, hnum,
        Nat.mul_add_mod]
    exact congrArg₂ List.cons hfirst ((congrArg _ hrest).trans (ih rfl))

/-- A block of eight bytes gives them back (R33). -/
theorem bytesOfBlock_blockOfBytes {bs : List Byte} (h : bs.length = 8) : bytesOfBlock (blockOfBytes bs) = bs :=
  toBytes_numOfBytes bs h

@[simp] theorem bytesOfBlocks_nil : bytesOfBlocks [] = [] := rfl

/-- The bytes of a stream of blocks begin with those of its first block (R125). -/
theorem bytesOfBlocks_cons (b : Block) (bs : List Block) :
    bytesOfBlocks (b :: bs) = bytesOfBlock b ++ bytesOfBlocks bs := List.flatMap_cons

/-! ## Encryption and decryption input -/

/-- A last chunk of 1 to 7 bytes is one block, filled with spaces (R126). -/
theorem padBlocks_of_short {a : List Byte} (hne : a ≠ []) (h : a.length < 8) :
    padBlocks a = [blockOfBytes (a ++ List.replicate (8 - a.length) 0x20#8)] := by
  unfold padBlocks
  split
  · simp at h; omega
  · contradiction
  · rfl

/-- A trailing chunk of 1 to 7 bytes is no decryption input (R129). -/
theorem wholeBlocks_of_short {a : List Byte} (hne : a ≠ []) (h : a.length < 8) :
    wholeBlocks a = .error .formatError := by
  unfold wholeBlocks
  split
  · simp at h; omega
  · contradiction
  · rfl

/-- The bytes of the padded blocks are the input and the spaces that fill its last block (R126). -/
theorem bytesOfBlocks_padBlocks (bs : List Byte) :
    bytesOfBlocks (padBlocks bs) = bs ++ List.replicate ((8 - bs.length % 8) % 8) 0x20#8 := by
  induction bs using induction_by_eight with
  | nil => rfl
  | short a hne h =>
    have hpos : 0 < a.length := List.length_pos_iff.mpr hne
    have hspaces : (8 - a.length % 8) % 8 = 8 - a.length := by omega
    have hfull : (a ++ List.replicate (8 - a.length) 0x20#8).length = 8 := by simp; omega
    rw [padBlocks_of_short hne h, bytesOfBlocks_cons, bytesOfBlock_blockOfBytes hfull, hspaces,
      bytesOfBlocks_nil, List.append_nil]
  | block a rest h ih =>
    have hmod : (a ++ rest).length % 8 = rest.length % 8 := by simp [h]
    rw [padBlocks_append rest h, bytesOfBlocks_cons, bytesOfBlock_blockOfBytes h, ih, hmod, List.append_assoc]

/-- The padded blocks are as many as the input fills or begins (R126). -/
theorem length_padBlocks (bs : List Byte) : (padBlocks bs).length = (bs.length + 7) / 8 := by
  induction bs using induction_by_eight with
  | nil => rfl
  | short a hne h =>
    have hpos : 0 < a.length := List.length_pos_iff.mpr hne
    rw [padBlocks_of_short hne h, List.length_singleton]
    omega
  | block a rest h ih =>
    rw [padBlocks_append rest h, List.length_cons, ih, List.length_append, h]
    omega

/-- A decryption input of whole blocks gives the blocks that hold its bytes (R128). -/
theorem wholeBlocks_of_whole {bs : List Byte} (h : bs.length % 8 = 0) :
    ∃ l, wholeBlocks bs = .ok l ∧ bytesOfBlocks l = bs := by
  induction bs using induction_by_eight with
  | nil => exact ⟨[], rfl, rfl⟩
  | short a hne hlt =>
    have hpos : 0 < a.length := List.length_pos_iff.mpr hne
    omega
  | block a rest ha ih =>
    have hrest : rest.length % 8 = 0 := by simpa [ha] using h
    obtain ⟨l, hl, hbytes⟩ := ih hrest
    refine ⟨blockOfBytes a :: l, by rw [wholeBlocks_append rest ha, hl], ?_⟩
    rw [bytesOfBlocks_cons, bytesOfBlock_blockOfBytes ha, hbytes]

/-- A decryption input with a partial last chunk is rejected, whatever whole blocks it begins with (R129). -/
theorem wholeBlocks_of_partial {bs : List Byte} (h : bs.length % 8 ≠ 0) :
    wholeBlocks bs = .error .formatError := by
  induction bs using induction_by_eight with
  | nil => exact absurd rfl h
  | short a hne hlt => exact wholeBlocks_of_short hne hlt
  | block a rest ha ih =>
    have hrest : rest.length % 8 ≠ 0 := by simpa [ha] using h
    rw [wholeBlocks_append rest ha, ih hrest]

/-! ## Bit text -/

/-- The bits of a byte, most significant first: what its bit text spells (`bitTextOfByte_eq_map`). -/
def bitsOfByte (b : Byte) : List Bool := (List.range 8).map fun i => bitAt b (i + 1)

@[simp] theorem length_bitsOfByte (b : Byte) : (bitsOfByte b).length = 8 := by
  rw [bitsOfByte, List.length_map, List.length_range]

/-- A byte's bit text is its bits, one character each (R132). -/
theorem bitTextOfByte_eq_map (b : Byte) : bitTextOfByte b = (bitsOfByte b).map bitChar := by
  rw [bitsOfByte, List.map_map]; rfl

/-- A stream's bit text is the bits of its bytes, one character each (R132). -/
theorem toBitText_eq_map (bs : List Byte) : toBitText bs = (bs.flatMap bitsOfByte).map bitChar := by
  rw [toBitText, List.map_flatMap, funext bitTextOfByte_eq_map]

/-- Character `j` of a byte's bit text is its bit `7 - j` (R132). -/
theorem getElem?_bitTextOfByte (b : Byte) {j : Nat} (hj : j < 8) :
    (bitTextOfByte b)[j]? = some (bitChar (b.getLsbD (7 - j))) := by
  have hbit : bitAt b (j + 1) = b.getLsbD (7 - j) := by
    rw [bitAt_succ, BitVec.getMsbD_eq_getLsbD]
    simp [hj]
  rw [bitTextOfByte, List.getElem?_map, List.getElem?_range hj, Option.map_some, hbit]

/-- A stream of `n` bytes is `8 * n` characters of bit text (R132). -/
theorem length_toBitText (bs : List Byte) : (toBitText bs).length = 8 * bs.length := by
  rw [toBitText_eq_map, List.length_map, List.length_flatMap]
  simp [Nat.mul_comm]

/-- The leading `m` bits of a string, read as a number most significant first, are the string without the rest. -/
theorem foldl_leadingBits {n m : Nat} (v : BitVec n) (hm : m ≤ n) :
    ((List.range m).map fun i => bitAt v (i + 1)).foldl (fun k b => k * 2 + b.toNat) 0 =
      v.toNat / 2 ^ (n - m) := by
  induction m with
  | zero => exact (Nat.div_eq_of_lt v.isLt).symm
  | succ m ih =>
    have hwidth : n - m = n - (m + 1) + 1 := by omega
    have hbit : (bitAt v (m + 1)).toNat = v.toNat / 2 ^ (n - (m + 1)) % 2 := by
      rw [bitAt_succ, BitVec.getMsbD_eq_getLsbD, decide_eq_true (Nat.lt_of_succ_le hm), Bool.true_and,
        BitVec.getLsbD, Nat.sub_sub, Nat.add_comm 1 m, Nat.toNat_testBit]
    rw [List.range_succ, List.map_append, List.foldl_append, ih (by omega), List.map_singleton, List.foldl_cons,
      List.foldl_nil, hbit, hwidth, Nat.pow_succ, ← Nat.div_div_eq_div_mul]
    exact Nat.div_add_mod' _ 2

/-- A byte's bits give the byte back. -/
theorem byteOfBits_bitsOfByte (b : Byte) : byteOfBits (bitsOfByte b) = b := by
  have hnum := foldl_leadingBits b (Nat.le_refl 8)
  rw [Nat.sub_self, Nat.pow_zero, Nat.div_one] at hnum
  rw [byteOfBits, bitsOfByte, hnum, BitVec.ofNat_toNat, BitVec.setWidth_eq]

/-- Eight bits in front of a list of bits are one byte in front of its bytes (R132). -/
theorem bytesOfBits_append {a rest : List Bool} {bs : List Byte} (h : a.length = 8)
    (hrest : bytesOfBits rest = .ok bs) : bytesOfBits (a ++ rest) = .ok (byteOfBits a :: bs) := by
  match a, h with
  | [b0, b1, b2, b3, b4, b5, b6, b7], _ =>
    simp only [List.cons_append, List.nil_append, bytesOfBits, hrest]

/-- The bits of a stream of bytes give the stream back. -/
theorem bytesOfBits_flatMap_bitsOfByte (bs : List Byte) : bytesOfBits (bs.flatMap bitsOfByte) = .ok bs := by
  induction bs with
  | nil => rfl
  | cons b bs ih =>
    rw [List.flatMap_cons, bytesOfBits_append (length_bitsOfByte b) ih, byteOfBits_bitsOfByte]

/-- The character of a bit stands for the bit. -/
theorem charBit_bitChar : ∀ b, charBit (bitChar b) = some b := by decide

/-- A character that is neither `0` nor `1` stands for no bit (R132). -/
theorem charBit_eq_none {c : Char} (h0 : c ≠ '0') (h1 : c ≠ '1') : charBit c = none := by
  rw [charBit, if_neg h1, if_neg h0]

/-- The characters of a list of bits stand for those bits. -/
theorem mapM_charBit_map_bitChar (l : List Bool) : (l.map bitChar).mapM charBit = some l := by
  induction l with
  | nil => rfl
  | cons b l ih => rw [List.map_cons, List.mapM_cons, charBit_bitChar, ih]; rfl

/-- A text with a character that stands for no bit spells no bits. -/
theorem mapM_charBit_eq_none {c : Char} (h : charBit c = none) {cs : List Char} (hc : c ∈ cs) :
    cs.mapM charBit = none := by
  induction hc with
  | head cs => rw [List.mapM_cons, h]; rfl
  | tail d _ ih => rw [List.mapM_cons, ih]; cases charBit d <;> rfl

/-- Bit text is read back unchanged (R132). -/
theorem ofBitText_toBitText (bs : List Byte) : ofBitText (toBitText bs) = .ok bs := by
  rw [ofBitText, toBitText_eq_map, mapM_charBit_map_bitChar]
  exact bytesOfBits_flatMap_bitsOfByte bs

/-- A character other than `0` and `1`, wherever it stands, is a format error (R132). -/
theorem ofBitText_eq_formatError {cs : List Char} (h : ∃ ch ∈ cs, ch ≠ '0' ∧ ch ≠ '1') :
    ofBitText cs = .error .formatError := by
  obtain ⟨ch, hmem, h0, h1⟩ := h
  rw [ofBitText, mapM_charBit_eq_none (charBit_eq_none h0 h1) hmem]

end Sys2Proof.Machine

namespace Sys2Proof

open Sys2Proof.Machine

/-- Settles O56: eight bytes at a time, every block gives its bytes back, and only the last one is filled. -/
theorem paddingFillsTheLastBlockWithSpaces : Obligations.PaddingFillsTheLastBlockWithSpaces :=
  ⟨fun bs => ⟨bytesOfBlocks_padBlocks bs, length_padBlocks bs⟩, rfl, by decide⟩

/-- Settles O57: the whole blocks in front pass the rest's outcome on, and the rest is empty or too short. -/
theorem partialDecryptionChunkIsRejected : Obligations.PartialDecryptionChunkIsRejected :=
  fun _ => ⟨wholeBlocks_of_whole, wholeBlocks_of_partial⟩

/-- Settles O58: bit text spells the bits of the bytes, and reading it back undoes both steps. -/
theorem bitTextFraming : Obligations.BitTextFraming := by
  have hexample : toBitText [0xA5#8] = ['1', '0', '1', '0', '0', '1', '0', '1'] := by decide
  refine ⟨fun b j hj => getElem?_bitTextOfByte b hj, fun bs => ⟨length_toBitText bs, ofBitText_toBitText bs⟩,
    fun cs h => ofBitText_eq_formatError h, hexample, ?_, ?_⟩
  · rw [← hexample, ofBitText_toBitText]
  · exact ofBitText_eq_formatError ⟨'2', by decide, by decide, by decide⟩

end Sys2Proof

/-! # Faults (60_exceptions.md)

Fault entry writes `FAULT` and `CAUSE` and nothing else (R166): whatever raises a fault ends in `raiseFault` of the
state it started from. A fault is terminal (R167): every event but a reset is a word, and a faulted engine ignores
every word. -/

namespace Sys2Proof.Machine

/-- The code of a cause is 1 or 2 (R161). -/
theorem code_eq_one_or_two (c : FaultCause) : c.code = 1#2 ∨ c.code = 2#2 := by
  cases c with
  | illegalCmd => exact .inl rfl
  | subkeysNotReady => exact .inr rfl

section FaultEntry

variable {w : CommandWord} {s t : State} {i : Instr}

/-- A command that raises a fault has no other effect: it never reached its own writes (R163, R166). -/
theorem exec_eq_raiseFault (h : exec i s = .next t) (hf : s.fault = false) (ht : t.fault = true) :
    t = s.raiseFault .subkeysNotReady := by
  by_cases hready : mnemonicOf i ∈ ["GETSK", "ROUND", "ENC", "DEC"] → s.kvalid = true
  · simp [exec_fault_of_ready h hf hready] at ht
  · obtain ⟨hneeds, hk⟩ := Classical.not_imp.mp hready
    have hraise := exec_of_subkeysNotReady hneeds hf (Bool.eq_false_of_not_eq_true hk)
    exact Host.Outcome.next.inj (h.symm.trans hraise)

/-- A presented word that raises a fault does what fault entry does for one of the two causes, and no more (R166). -/
theorem runWord_eq_raiseFault (h : runWord w s = .next t) (hf : s.fault = false) (ht : t.fault = true) :
    ∃ c, t = s.raiseFault c := by
  rcases runWord_cases h with ⟨i, -, hexec⟩ | ⟨e, -, hillegal⟩
  · exact ⟨.subkeysNotReady, exec_eq_raiseFault hexec hf ht⟩
  · rcases illegalCommand_cases hillegal with ⟨-, rfl⟩ | ⟨-, hraise⟩
    · simp [hf] at ht
    · exact ⟨.illegalCmd, hraise⟩

end FaultEntry

/-- Without a reset among them, no events of the host have an effect on a faulted engine (R167). -/
theorem applyEvents_of_fault {s : State} (hf : s.fault = true) {es : List HostEvent}
    (h : HostEvent.reset ∉ es) : applyEvents es s = .next s := by
  induction es with
  | nil => rfl
  | cons e es ih =>
    obtain ⟨hhead, htail⟩ := List.ne_and_not_mem_of_not_mem_cons h
    cases e with
    | reset => exact absurd rfl hhead
    | command w =>
      have hword : applyEvent (.command w) s = .next s := runWord_of_fault hf w
      rw [applyEvents_cons hword, ih htail]

end Sys2Proof.Machine

namespace Sys2Proof

open Sys2Proof.Machine

/-- Settles O11: a faulted engine ignores commands and words, so an event that changes it is a reset, which does
clear the fault. -/
theorem faultIsTerminal : Obligations.FaultIsTerminal := by
  intro s hf
  refine ⟨fun i => exec_of_fault hf i, fun ws => applyEvents_of_fault hf (by simp), ?_, s.applyReset, rfl,
    applyReset_fault s⟩
  intro es t hrun hchanged
  by_contra hreset
  have hsame : t = s := Host.Outcome.next.inj (hrun.symm.trans (applyEvents_of_fault hf hreset))
  exact hchanged hsame

/-- Settles O31: the state after is fault entry's, with the code of its cause. -/
theorem faultEntryWritesOnlyFaultAndCause : Obligations.FaultEntryWritesOnlyFaultAndCause := by
  intro w s t hf hrun ht
  obtain ⟨c, rfl⟩ := runWord_eq_raiseFault hrun hf ht
  exact ⟨c.code, code_eq_one_or_two c, rfl⟩

end Sys2Proof

/-! # Command words and the commands they stand for (30_encoding.md)

The round trips between a command and its word, as bits and as bytes (R48, R49), and the words written out in the
spec. -/

namespace Sys2Proof

open Sys2Proof.Machine

/-- What a table row's word decodes to is what its 72 bits decode to (R45, R48). -/
theorem decodeTableWord_eq (w : Nat) : decodeTableWord 72 w = (decodeWord (tableWord 72 w)).toOption := by
  have hbytes := decodeBytes_wordBytes_append (tableWord 72 w) []
  rw [List.append_nil] at hbytes
  rw [decodeTableWord, if_pos (Nat.le_refl 72), hbytes]
  cases decodeWord (tableWord 72 w) <;> rfl

/-- Settles O1: the word decodes to its command, and the byte form reads the word back out of its nine bytes. -/
theorem decodeInvertsEncode : Obligations.DecodeInvertsEncode := by
  intro i rest _
  refine ⟨decodeWord_encode i, ?_⟩
  rw [decodeBytes_wordBytes_append, decodeWord_encode]
  rfl

/-- Settles O2: the fields a word was decoded from are all of its bits. -/
theorem encodeInvertsDecode : Obligations.EncodeInvertsDecode :=
  fun _ _ => encode_of_decodeWord

/-- Settles O7: the bytes of a table word add nothing to its bits, which are decoded. -/
theorem sampleWordsDecode : Obligations.SampleWordsDecode := by
  simp only [Obligations.SampleWordsDecode, decodeTableWord_eq]
  decide

end Sys2Proof

/-! # The commands on an engine that runs them (R25, R50)

Every command but `LDKEY` and `KSGEN` writes `BLK` at most, and the block it writes is a function of the tables, the
subkeys and the block before. With that function said once, each command's result and frame is one equation. -/

namespace Sys2Proof.Machine

/-- The block a command leaves in `BLK` when it is not stopped by a check (R66 to R71, R80, R92, R104, R105, R113 to
R116); tied to `exec` by `exec_eq_setBlk`. -/
def blkResult (i : Instr) (c : Cfg) (sk : SubkeyStore) (b : Block) : Block :=
  match i with
  | .nop | .ldkey _ | .ksgen => b
  | .ldblk imm => imm
  | .getsk n => (sk[n] ++ 0#16 : BitVec 64)
  | .permIp => permute b c.ip
  | .permIpinv => permute b c.ipinv
  | .permE => (permute (b.extractLsb' 32 32) c.e ++ 0#16 : BitVec 64)
  | .permP => (permute (b.extractLsb' 32 32) c.p ++ 0#32 : BitVec 64)
  | .permPc1 => (permute b c.pc1 ++ 0#8 : BitVec 64)
  | .permPc2 => (permute (b.extractLsb' 8 56) c.pc2 ++ 0#16 : BitVec 64)
  | .subst => (substitute c (b.extractLsb' 16 48) ++ 0#32 : BitVec 64)
  | .round n => feistelRound c b sk[n]
  | .swap => swapHalves b
  | .enc => encryptBlock c sk b
  | .dec => decryptBlock c sk b

/-- Only the commands that test `KVALID` have a result that depends on the subkeys (R25). -/
theorem blkResult_of_needsNoSubkeys {i : Instr} (h : mnemonicOf i ∉ ["GETSK", "ROUND", "ENC", "DEC"]) (c : Cfg)
    (sk sk' : SubkeyStore) (b : Block) : blkResult i c sk b = blkResult i c sk' b := by
  cases i with
  | getsk n => simp [mnemonicOf] at h
  | round n => simp [mnemonicOf] at h
  | enc => simp [mnemonicOf] at h
  | dec => simp [mnemonicOf] at h
  | _ => rfl

/-- The whole block as an operand (R34). -/
@[simp] theorem blkTop_block (s : State) : s.blkTop 64 = s.blk := substr_block s.blk

section Running

variable {s : State} {i : Instr}

/-- A command that passes its checks and is not `LDKEY` or `KSGEN` writes its result to `BLK` and nothing else. -/
theorem exec_eq_setBlk (hi : mnemonicOf i ∉ ["LDKEY", "KSGEN"]) (hf : s.fault = false)
    (hready : mnemonicOf i ∈ ["GETSK", "ROUND", "ENC", "DEC"] → s.kvalid = true) :
    exec i s = .next (s.setBlk (blkResult i s.cfg s.sk s.blk)) := by
  cases i with
  | nop => rfl
  | ldkey imm => simp [mnemonicOf] at hi
  | ksgen => simp [mnemonicOf] at hi
  | ldblk imm => rw [exec, execLdblk, unlessFaulted_of_running hf]; rfl
  | getsk n =>
    rw [exec, execGetsk, unlessFaulted_of_running hf, withSubkeys_of_valid (hready (by simp [mnemonicOf])),
      State.setBlkTop, pad64_48]
    rfl
  | permIp => rw [exec, execPermIp, unlessFaulted_of_running hf, State.setBlkTop, pad64_block, blkTop_block]; rfl
  | permIpinv =>
    rw [exec, execPermIpinv, unlessFaulted_of_running hf, State.setBlkTop, pad64_block, blkTop_block]; rfl
  | permE => rw [exec, execPermE, unlessFaulted_of_running hf, State.setBlkTop, pad64_48]; rfl
  | permP => rw [exec, execPermP, unlessFaulted_of_running hf, State.setBlkTop, pad64_32]; rfl
  | permPc1 => rw [exec, execPermPc1, unlessFaulted_of_running hf, State.setBlkTop, pad64_56, blkTop_block]; rfl
  | permPc2 => rw [exec, execPermPc2, unlessFaulted_of_running hf, State.setBlkTop, pad64_48]; rfl
  | subst => exact exec_subst_of_running hf
  | round n =>
    rw [exec, execRound, unlessFaulted_of_running hf, withSubkeys_of_valid (hready (by simp [mnemonicOf]))]
    rfl
  | swap => exact exec_swap_of_running hf
  | enc => exact exec_enc_of_ready hf (hready (by simp [mnemonicOf]))
  | dec => exact exec_dec_of_ready hf (hready (by simp [mnemonicOf]))

/-- A command that neither tests nor writes `KVALID` needs no more than an engine without a fault (R50). -/
theorem exec_eq_setBlk_of_running (hi : mnemonicOf i ∉ ["LDKEY", "KSGEN"])
    (hfree : mnemonicOf i ∉ ["GETSK", "ROUND", "ENC", "DEC"]) (hf : s.fault = false) :
    exec i s = .next (s.setBlk (blkResult i s.cfg s.sk s.blk)) :=
  exec_eq_setBlk hi hf fun hneeds => absurd hneeds hfree

/-- `LDKEY` on an engine without a fault writes `KEY` and `KVALID` and nothing else (R90). -/
theorem exec_ldkey_of_running (hf : s.fault = false) (k : Block) :
    exec (.ldkey k) s = .next { s with key := k, kvalid := false } := by
  rw [exec, execLdkey, unlessFaulted_of_running hf]
  rfl

/-- `LDBLK` on an engine without a fault writes `BLK` and nothing else (R113). -/
theorem exec_ldblk_of_running (hf : s.fault = false) (b : Block) : exec (.ldblk b) s = .next (s.setBlk b) :=
  exec_eq_setBlk_of_running (by simp [mnemonicOf]) (by simp [mnemonicOf]) hf

/-- `PERM.IP` on an engine without a fault writes `BLK` and nothing else (R66). -/
theorem exec_permIp_of_running (hf : s.fault = false) :
    exec .permIp s = .next (s.setBlk (permute s.blk s.cfg.ip)) :=
  exec_eq_setBlk_of_running (by decide) (by decide) hf

/-- `PERM.IPINV` on an engine without a fault writes `BLK` and nothing else (R67). -/
theorem exec_permIpinv_of_running (hf : s.fault = false) :
    exec .permIpinv s = .next (s.setBlk (permute s.blk s.cfg.ipinv)) :=
  exec_eq_setBlk_of_running (by decide) (by decide) hf

/-- `ROUND` on an engine with valid subkeys writes `BLK` and nothing else (R104). -/
theorem exec_round_of_ready (hf : s.fault = false) (hk : s.kvalid = true) (n : SubkeyIndex) :
    exec (.round n) s = .next (s.setBlk (feistelRound s.cfg s.blk s.sk[n])) :=
  exec_eq_setBlk (by simp [mnemonicOf]) hf fun _ => hk

end Running

/-- A table that fits in `n` positions selects the same bits from a whole string and from its leading `n` positions
(the template before R66). -/
theorem permute_substr {N n m : Nat} {t : Vector Nat m} (v : BitVec N) (hn : n ≤ N)
    (ht : entriesWithin n t = true) : permute (substr v 1 n) t = permute v t := by
  refine eq_of_bitAt_eq fun p h1 hp => ?_
  obtain ⟨hpos, hle⟩ := entriesWithin_getElem ht (p - 1) (by omega)
  rw [bitAt_permute _ t h1 hp, bitAt_permute _ t h1 hp, bitAt_substr v (Nat.le_refl 1) hpos hle (by omega),
    Nat.add_sub_cancel_left]

end Sys2Proof.Machine

namespace Sys2Proof

open Sys2Proof.Machine

/-- Settles O17: `NOP` makes no check, so not even a fault matters. -/
theorem nopChangesNothing : Obligations.NopChangesNothing :=
  fun _ => rfl

/-- Settles O18: `LDKEY` checks nothing but `FAULT`, not even whether the key is the same. -/
theorem ldkeyLoadsKeyAndInvalidatesSubkeys : Obligations.LdkeyLoadsKeyAndInvalidatesSubkeys :=
  fun _ k hf => exec_ldkey_of_running hf k

/-- Settles O19: `LDBLK` makes no check of `KVALID`. -/
theorem ldblkLoadsBlock : Obligations.LdblkLoadsBlock :=
  fun _ b hf => exec_ldblk_of_running hf b

/-- Settles O21: the result of `GETSK`, once both checks are passed. -/
theorem getskReadsSubkey : Obligations.GetskReadsSubkey :=
  fun _ _ hf hk => exec_eq_setBlk (by simp [mnemonicOf]) hf fun _ => hk

/-- Settles O22: both operands are the whole block, and 64 bits need no fill. -/
theorem permIpAndIpinvPermuteTheBlock : Obligations.PermIpAndIpinvPermuteTheBlock :=
  fun _ hf => ⟨exec_permIp_of_running hf, exec_permIpinv_of_running hf⟩

/-- Settles O23: none of the four tests `KVALID`. -/
theorem shortPermCommandsLeftAlign : Obligations.ShortPermCommandsLeftAlign :=
  fun _ hf => ⟨exec_eq_setBlk_of_running (i := .permE) (by decide) (by decide) hf,
    exec_eq_setBlk_of_running (i := .permP) (by decide) (by decide) hf,
    exec_eq_setBlk_of_running (i := .permPc1) (by decide) (by decide) hf,
    exec_eq_setBlk_of_running (i := .permPc2) (by decide) (by decide) hf⟩

/-- Settles O24: the checks of R140 keep the three tables inside the leading 32, 32 and 56 positions. -/
theorem multiplexerInputMayBeTheWholeBlock : Obligations.MultiplexerInputMayBeTheWholeBlock := by
  intro c b hc
  obtain ⟨-, -, -, -, he, hp, -, hpc2, -⟩ := Cfg.wellFormed_parts hc
  exact ⟨(permute_substr b (by decide) he).symm, (permute_substr b (by decide) hp).symm,
    (permute_substr b (by decide) hpc2).symm⟩

/-- Settles O26: the round of a block written in its halves. -/
theorem roundMixesTheHalves : Obligations.RoundMixesTheHalves := by
  intro s n l r hf hk hblk
  rw [exec_round_of_ready hf hk, hblk, feistelRound_append]
  rfl

/-- Settles O40: each of the four results is computed from the leading bits alone. -/
theorem shortInputsIgnoreTheRestOfBlk : Obligations.ShortInputsIgnoreTheRestOfBlk := by
  intro s b hf
  have hsame : ∀ i : Instr, mnemonicOf i ∉ ["LDKEY", "KSGEN"] →
      mnemonicOf i ∉ ["GETSK", "ROUND", "ENC", "DEC"] →
      blkResult i s.cfg s.sk b = blkResult i s.cfg s.sk s.blk → exec i { s with blk := b } = exec i s := by
    intro i hi hfree hresult
    have hleft := exec_eq_setBlk_of_running (s := { s with blk := b }) hi hfree hf
    have hright := exec_eq_setBlk_of_running hi hfree hf
    rw [hleft, hright, ← hresult]
    rfl
  refine ⟨fun h => hsame .permE (by decide) (by decide) ?_, fun h => hsame .permP (by decide) (by decide) ?_,
    fun h => hsame .subst (by decide) (by decide) ?_, fun h => hsame .permPc2 (by decide) (by decide) ?_⟩
  all_goals rw [blkResult, h, blkResult]

end Sys2Proof

/-! # Steps and their invariants (10_state.md, 60_exceptions.md)

What a step does to each register follows from what a command does: `exec_cases` says it for an engine without a
fault, and a faulted one ignores every command (R167). A step is idle, takes a reset, or takes a word (R39). -/

namespace Sys2Proof.Machine

/-! ## Steps -/

/-- A run of the machine that completes its first step goes on from there. -/
theorem run_succ_of_next {M : Host.Core} {s t : M.State} (h : M.step s = .next t) (n : Nat) :
    M.run (n + 1) s = M.run n t := by
  rw [Host.Core.run, h]

/-- An engine with nothing presented to it holds its state for any number of steps (R174). -/
theorem run_idle {s : State} (hw : s.cfg.wellFormed = true) (hp : s.port = []) (n : Nat) :
    Host.Core.run Sys2Proof.core n s = .next s := by
  have hstep : Sys2Proof.core.step s = .next s := step_idle hw hp
  induction n with
  | zero => rfl
  | succ n ih => exact (run_succ_of_next hstep n).trans ih

/-- Every presented word completes, whether or not it is a command (R187). -/
theorem runWord_completes (w : CommandWord) (s : State) : ∃ t, runWord w s = .next t := by
  cases hf : s.fault with
  | true => exact ⟨s, runWord_of_fault hf w⟩
  | false =>
    cases hd : decodeWord w with
    | ok i => rw [runWord_of_ok hd]; exact exec_completes i s
    | error e => exact ⟨_, runWord_of_illegal ⟨e, hd⟩ hf⟩

/-- Every event of the host completes (R180, R187). -/
theorem applyEvent_completes (e : HostEvent) (s : State) : ∃ t, applyEvent e s = .next t := by
  cases e with
  | command w => exact runWord_completes w s
  | reset => exact ⟨s.applyReset, rfl⟩

/-- Every step of an engine that exists completes (R164, R187). -/
theorem step_completes {s : State} (hw : s.cfg.wellFormed = true) : ∃ t, step s = .next t := by
  cases hp : s.port with
  | nil => exact ⟨s, step_idle hw hp⟩
  | cons e rest => rw [step_event hw hp]; exact applyEvent_completes e _

/-- What holds of a state whatever its pending events, holds after a reset and is kept by a presented word, is kept
by every step. -/
theorem step_keeps {P : State → Prop} (hport : ∀ s rest, P s → P { s with port := rest })
    (hreset : ∀ s, P s → P s.applyReset) (hword : ∀ w s t, P s → runWord w s = .next t → P t) {s t : State}
    (hs : P s) (h : step s = .next t) : P t := by
  obtain ⟨-, ⟨-, rfl⟩ | ⟨rest, -, rfl⟩ | ⟨w, rest, -, hrun⟩⟩ := step_cases h
  · exact hs
  · exact hreset _ (hport s rest hs)
  · exact hword w _ t (hport s rest hs) hrun

/-- What commands and fault entry keep, a presented word keeps. -/
theorem runWord_keeps {P : State → Prop} (hexec : ∀ i s t, P s → s.fault = false → exec i s = .next t → P t)
    (hraise : ∀ s c, P s → P (s.raiseFault c)) (w : CommandWord) (s t : State) (hs : P s)
    (h : runWord w s = .next t) : P t := by
  cases hf : s.fault with
  | true =>
    cases (runWord_of_fault hf w).symm.trans h
    exact hs
  | false =>
    rcases runWord_cases h with ⟨i, -, hi⟩ | ⟨e, he, -⟩
    · exact hexec i s t hs hf hi
    · cases (runWord_of_illegal ⟨e, he⟩ hf).symm.trans h
      exact hraise s .illegalCmd hs

/-! ## The fault registers -/

/-- Fault entry records a cause that is not 0 and not 3 (R161). -/
theorem raiseFault_faultConsistent (s : State) (c : FaultCause) : (s.raiseFault c).faultConsistent := by
  cases c <;> simp [State.faultConsistent, FaultCause.code]

/-- A command leaves consistent fault registers as they are, or enters a fault (R18, R161). -/
theorem exec_keeps_faultConsistent (i : Instr) (s t : State) (hs : s.faultConsistent) (hf : s.fault = false)
    (h : exec i s = .next t) : t.faultConsistent := by
  rcases exec_cases h hf with ⟨-, rfl⟩ | ⟨k, -, rfl⟩ | ⟨-, rfl⟩ | ⟨-, -, -, b, rfl⟩ | ⟨-, -, rfl⟩
  · exact hs
  · exact hs
  · simpa [State.faultConsistent] using hs
  · exact hs
  · exact raiseFault_faultConsistent s .subkeysNotReady

/-- After a reset no fault is recorded (R26). -/
theorem resetWith_faultConsistent (c : Cfg) (k : KsSteps) : (State.resetWith c k).faultConsistent := by
  simp [State.faultConsistent]

/-- A command that raises a fault is one of the four that test `KVALID`, and found it 0 (R163). -/
theorem notReady_of_exec_fault {i : Instr} {s t : State} (h : exec i s = .next t) (hf : s.fault = false)
    (ht : t.fault = true) : s.kvalid = false ∧ mnemonicOf i ∈ ["GETSK", "ROUND", "ENC", "DEC"] := by
  have hnotReady : ¬ (mnemonicOf i ∈ ["GETSK", "ROUND", "ENC", "DEC"] → s.kvalid = true) := fun hready => by
    simp [exec_fault_of_ready h hf hready] at ht
  obtain ⟨hneeds, hk⟩ := Classical.not_imp.mp hnotReady
  exact ⟨Bool.eq_false_of_not_eq_true hk, hneeds⟩

/-! ## The subkeys -/

/-- `LDKEY` gives up the validity of the subkeys with the old key, `KSGEN` derives them from the current one, and no
other command writes `KEY`, `SK` or `KVALID` (R13, R90, R91). -/
theorem exec_keeps_subkeysCurrent (i : Instr) (s t : State) (hs : s.subkeysCurrent) (hf : s.fault = false)
    (h : exec i s = .next t) : t.subkeysCurrent := by
  rcases exec_cases h hf with ⟨-, rfl⟩ | ⟨k, -, rfl⟩ | ⟨-, rfl⟩ | ⟨-, -, -, b, rfl⟩ | ⟨-, -, rfl⟩
  · exact hs
  · simp [State.subkeysCurrent]
  · simp [State.subkeysCurrent]
  · exact hs
  · exact hs

/-- After a reset the subkeys are not valid (R26). -/
theorem resetWith_subkeysCurrent (c : Cfg) (k : KsSteps) : (State.resetWith c k).subkeysCurrent := by
  simp [State.subkeysCurrent]

/-! ## The parameters of the hardware -/

/-- The engine's tables and strap are `c` and `k`. -/
def State.hasParameters (c : Cfg) (k : KsSteps) (s : State) : Prop := s.cfg = c ∧ s.ksSteps = k

/-- No command writes the tables or the strap (R22, R93). -/
theorem exec_keeps_parameters (c : Cfg) (k : KsSteps) (i : Instr) (s t : State) (hs : s.hasParameters c k)
    (hf : s.fault = false) (h : exec i s = .next t) : t.hasParameters c k := by
  rcases exec_cases h hf with ⟨-, rfl⟩ | ⟨key, -, rfl⟩ | ⟨-, rfl⟩ | ⟨-, -, -, b, rfl⟩ | ⟨-, -, rfl⟩
  all_goals simpa [State.hasParameters] using hs

end Sys2Proof.Machine

namespace Sys2Proof

open Sys2Proof.Machine

/-- Settles O35: a word leaves consistent fault registers as they are or enters a fault, and a reset clears both. -/
theorem faultConsistencyIsInvariant : Obligations.FaultConsistencyIsInvariant := by
  intro s t hs h
  exact step_keeps (fun _ _ hs => hs) (fun s _ => resetWith_faultConsistent s.cfg s.ksSteps)
    (runWord_keeps exec_keeps_faultConsistent fun s c _ => raiseFault_faultConsistent s c) hs h

/-- Settles O36: fault entry leaves the subkeys and `KVALID` alone, and a reset clears `KVALID`. -/
theorem validSubkeysMatchKeyIsInvariant : Obligations.ValidSubkeysMatchKeyIsInvariant := by
  intro s t hs h
  exact step_keeps (fun _ _ hs => hs) (fun s _ => resetWith_subkeysCurrent s.cfg s.ksSteps)
    (runWord_keeps exec_keeps_subkeysCurrent fun _ _ hs => hs) hs h

/-- Settles O37: after a reset `FAULT`, `CAUSE` and `KVALID` are 0. -/
theorem invariantsHoldAtReset : Obligations.InvariantsHoldAtReset :=
  fun c k => ⟨resetWith_faultConsistent c k, resetWith_subkeysCurrent c k⟩

/-- Settles O33: having given parameters is kept by commands, by fault entry and by a reset. -/
theorem configurationIsNeverWritten : Obligations.ConfigurationIsNeverWritten := by
  intro s t h
  exact step_keeps (P := State.hasParameters s.cfg s.ksSteps) (fun _ _ hs => hs) (fun _ hs => hs)
    (runWord_keeps (exec_keeps_parameters s.cfg s.ksSteps) fun _ _ hs => hs) ⟨rfl, rfl⟩ h

/-- Settles O32: a faulted engine writes nothing, and `exec_cases` names what a running one writes. -/
theorem registersHaveOnlyTheirWriters : Obligations.RegistersHaveOnlyTheirWriters := by
  intro i s t h
  rcases Bool.eq_false_or_eq_true s.fault with hf | hf
  · cases (exec_of_fault hf i).symm.trans h
    simp
  rcases exec_cases h hf with ⟨rfl, rfl⟩ | ⟨k, rfl, rfl⟩ | ⟨rfl, rfl⟩ | ⟨hnop, hldkey, hksgen, b, rfl⟩ | ⟨hi, -, rfl⟩
  · simp
  · simp [mnemonicOf]
  · simp [mnemonicOf]
  · have hwrites : mnemonicOf i ∉ ["NOP", "LDKEY", "KSGEN"] := by
      cases i with
      | nop => exact absurd rfl hnop
      | ldkey k => exact absurd rfl (hldkey k)
      | ksgen => exact absurd rfl hksgen
      | _ => simp [mnemonicOf]
    simp [hwrites]
  · rcases hi with ⟨n, rfl⟩ | ⟨n, rfl⟩ | rfl | rfl <;> simp [mnemonicOf]

/-- Settles O30: the four commands find `KVALID` 0 and raise cause 2; a command that raises a fault is one of them. -/
theorem subkeysNotReadyExactlyWhenInvalid : Obligations.SubkeysNotReadyExactlyWhenInvalid := by
  refine ⟨fun s n hf hk => ?_, fun i s t hf h ht => ?_⟩
  · have hraise : ∀ i : Instr, mnemonicOf i ∈ ["GETSK", "ROUND", "ENC", "DEC"] →
        exec i s = .next (s.raiseFault .subkeysNotReady) := fun i hi => exec_of_subkeysNotReady hi hf hk
    exact ⟨hraise (.getsk n) (by simp [mnemonicOf]), hraise (.round n) (by simp [mnemonicOf]),
      hraise .enc (by decide), hraise .dec (by decide)⟩
  · obtain ⟨hk, hneeds⟩ := notReady_of_exec_fault h hf ht
    exact ⟨hk, hneeds, congrArg State.cause (exec_eq_raiseFault h hf ht)⟩

/-- Settles O8: the step takes the head of the port, and a word that decodes is its command. -/
theorem stepRunsTheDecodedCommand : Obligations.StepRunsTheDecodedCommand := by
  intro s w rest i hw hp hdecode
  rw [step_event hw hp]
  exact runWord_of_ok hdecode _

/-- Settles O9: a word of no row is rejected by the decoder, before `KVALID` is looked at. -/
theorem stepRaisesIllegalCmd : Obligations.StepRaisesIllegalCmd := by
  intro s w rest hw hf hp hrow
  rw [step_event hw hp]
  exact runWord_of_illegal (s := { s with port := rest }) (decodeWord_error_of_no_row hrow) hf

/-- Settles O12: the step is the reset of the engine without the event in its port. -/
theorem resetEventRestoresResetValues : Obligations.ResetEventRestoresResetValues := by
  intro s rest hw hp
  rw [step_event hw hp]
  rfl

/-- Settles O14: one step with an empty port holds the state, so any number does. -/
theorem idleEngineHoldsItsState : Obligations.IdleEngineHoldsItsState :=
  fun _ n hw hp => run_idle hw hp n

/-- Settles O15: `build` and `step` check the tables first, and the strap has two settings. -/
theorem malformedConfigurationIsRefused : Obligations.MalformedConfigurationIsRefused := by
  refine ⟨fun c n hc => ?_, fun s hs => ?_, fun c hc => ⟨?_, ?_, fun n h16 h15 => ?_⟩⟩
  · simp [build, hc]
  · simp [step, takeStep, hs]
  · simp [build, hc, KsSteps.ofNat?]
  · simp [build, hc, KsSteps.ofNat?]
  · simp [build, hc, KsSteps.ofNat?, h16, h15]

end Sys2Proof

/-! # What a command does not depend on (10_state.md R14, 42_keyschedule.md R90)

Two engines that differ in one register alone are followed through the same commands: they go on differing in that
register alone, or no longer differ. -/

namespace Sys2Proof.Machine

/-! ## `KEY` -/

/-- A command that neither loads nor uses `KEY` carries it along (R14). -/
theorem exec_setKey {i : Instr} (hi : mnemonicOf i ∉ ["LDKEY", "KSGEN"]) (s : State) (k : Block) :
    ∃ t, exec i s = .next t ∧ exec i (s.setKey k) = .next (t.setKey k) := by
  cases hf : s.fault with
  | true => exact ⟨s, exec_of_fault hf i, exec_of_fault (s := s.setKey k) hf i⟩
  | false =>
    by_cases hready : mnemonicOf i ∈ ["GETSK", "ROUND", "ENC", "DEC"] → s.kvalid = true
    · exact ⟨_, exec_eq_setBlk hi hf hready, exec_eq_setBlk (s := s.setKey k) hi hf hready⟩
    · obtain ⟨hneeds, hk⟩ := Classical.not_imp.mp hready
      have hinvalid : s.kvalid = false := Bool.eq_false_of_not_eq_true hk
      exact ⟨_, exec_of_subkeysNotReady hneeds hf hinvalid,
        exec_of_subkeysNotReady (s := s.setKey k) hneeds hf hinvalid⟩

/-! ## `SK` while `KVALID = 0` -/

/-- Two engines the host cannot tell apart: one and the same, or alike up to subkeys that are not valid. -/
def State.sameUpToStaleSubkeys (s s' : State) : Prop :=
  s' = s ∨ s.kvalid = false ∧ ∃ sk, s' = s.setSk sk

/-- What the host reads does not show the subkeys (R23). -/
theorem hostView_eq_of_sameUpToStaleSubkeys {s s' : State} (h : s.sameUpToStaleSubkeys s') :
    s.hostView = s'.hostView := by
  obtain rfl | ⟨-, sk, rfl⟩ := h <;> rfl

/-- A command on an engine whose subkeys are not valid: `KSGEN` overwrites them, and any other command reads none of
them (R90, R91, R163). -/
theorem exec_setSk_of_invalid (i : Instr) {s : State} (hk : s.kvalid = false) (sk : SubkeyStore) :
    ∃ t t', exec i s = .next t ∧ exec i (s.setSk sk) = .next t' ∧ t.sameUpToStaleSubkeys t' := by
  cases hf : s.fault with
  | true => exact ⟨s, _, exec_of_fault hf i, exec_of_fault (s := s.setSk sk) hf i, .inr ⟨hk, sk, rfl⟩⟩
  | false =>
    by_cases hneeds : mnemonicOf i ∈ ["GETSK", "ROUND", "ENC", "DEC"]
    · exact ⟨_, _, exec_of_subkeysNotReady hneeds hf hk, exec_of_subkeysNotReady (s := s.setSk sk) hneeds hf hk,
        .inr ⟨hk, sk, rfl⟩⟩
    by_cases hi : mnemonicOf i ∈ ["LDKEY", "KSGEN"]
    · cases i with
      | ldkey k =>
        exact ⟨_, _, exec_ldkey_of_running hf k, exec_ldkey_of_running (s := s.setSk sk) hf k,
          .inr ⟨rfl, sk, rfl⟩⟩
      | ksgen => exact ⟨_, _, exec_ksgen_of_running hf, exec_ksgen_of_running (s := s.setSk sk) hf, .inl rfl⟩
      | _ => simp [mnemonicOf] at hi
    · have hwithout := exec_eq_setBlk_of_running hi hneeds hf
      have hwith := exec_eq_setBlk_of_running (s := s.setSk sk) hi hneeds hf
      rw [blkResult_of_needsNoSubkeys hneeds _ _ s.sk] at hwith
      exact ⟨_, _, hwithout, hwith, .inr ⟨hk, sk, rfl⟩⟩

/-- Engines that the host cannot tell apart stay so, whatever it does next (R90). -/
theorem applyEvent_sameUpToStaleSubkeys (e : HostEvent) {s s' : State} (h : s.sameUpToStaleSubkeys s') :
    ∃ t t', applyEvent e s = .next t ∧ applyEvent e s' = .next t' ∧ t.sameUpToStaleSubkeys t' := by
  obtain rfl | ⟨hk, sk, rfl⟩ := h
  · obtain ⟨t, ht⟩ := applyEvent_completes e s'
    exact ⟨t, t, ht, ht, .inl rfl⟩
  cases e with
  | reset => exact ⟨_, _, rfl, rfl, .inl rfl⟩
  | command w =>
    cases hd : decodeWord w with
    | ok i =>
      simp only [applyEvent, runWord_of_ok hd]
      exact exec_setSk_of_invalid i hk sk
    | error e =>
      cases hf : s.fault with
      | true =>
        exact ⟨_, _, runWord_of_fault hf w, runWord_of_fault (s := s.setSk sk) hf w, .inr ⟨hk, sk, rfl⟩⟩
      | false =>
        exact ⟨_, _, runWord_of_illegal ⟨e, hd⟩ hf, runWord_of_illegal (s := s.setSk sk) ⟨e, hd⟩ hf,
          .inr ⟨hk, sk, rfl⟩⟩

/-- The same for any sequence of events. -/
theorem applyEvents_sameUpToStaleSubkeys (es : List HostEvent) {s s' : State} (h : s.sameUpToStaleSubkeys s') :
    ∃ t t', applyEvents es s = .next t ∧ applyEvents es s' = .next t' ∧ t.sameUpToStaleSubkeys t' := by
  induction es generalizing s s' with
  | nil => exact ⟨s, s', rfl, rfl, h⟩
  | cons e es ih =>
    obtain ⟨t, t', ht, ht', hsame⟩ := applyEvent_sameUpToStaleSubkeys e h
    rw [applyEvents_cons ht, applyEvents_cons ht']
    exact ih hsame

end Sys2Proof.Machine

namespace Sys2Proof

open Sys2Proof.Machine

/-- Settles O38: `LDKEY` makes the two keys one, and any other command carries each along. -/
theorem keyIsReadOnlyByKsgen : Obligations.KeyIsReadOnlyByKsgen := by
  intro i s k hksgen
  by_cases hi : mnemonicOf i ∈ ["LDKEY", "KSGEN"]
  · cases i with
    | ldkey imm =>
      rcases Bool.eq_false_or_eq_true s.fault with hf | hf
      · exact ⟨s, k, exec_of_fault hf _, exec_of_fault (s := s.setKey k) hf _⟩
      · exact ⟨_, imm, exec_ldkey_of_running hf imm, exec_ldkey_of_running (s := s.setKey k) hf imm⟩
    | ksgen => exact absurd rfl hksgen
    | _ => simp [mnemonicOf] at hi
  · obtain ⟨t, ht, ht'⟩ := exec_setKey hi s k
    exact ⟨t, k, ht, ht'⟩

/-- Settles O39: the two engines stay alike up to subkeys that are not valid, or become one. -/
theorem staleSubkeysAreUnobservable : Obligations.StaleSubkeysAreUnobservable := by
  intro es s sk hk
  obtain ⟨t, t', ht, ht', hsame⟩ :=
    applyEvents_sameUpToStaleSubkeys es (s := s) (s' := s.setSk sk) (.inr ⟨hk, sk, rfl⟩)
  exact ⟨t, t', ht, ht', hostView_eq_of_sameUpToStaleSubkeys hsame⟩

end Sys2Proof

/-! # Runs of commands (70_reset_and_hazards.md R189)

Runs compose: the second begins where the first ends and its reads come after the first's. What a run's initial part
and one more command do follows from that. -/

namespace Sys2Proof.Machine

/-- What the host reads after a command is put before what it reads later. -/
theorem record_append (r : RunItem) (t : State) (l l' : List Block) :
    r.record t (l ++ l') = r.record t l ++ l' := by
  unfold RunItem.record
  split <;> rfl

/-- Every run completes, in the state after its last command (R187, R189). -/
theorem runFrom_completes (rs : List RunItem) (s : State) :
    ∃ e, runFrom rs s = .next e ∧ applyEvents (rs.map fun r => .command r.word) s = .next e.final := by
  induction rs generalizing s with
  | nil => exact ⟨⟨s, []⟩, rfl, rfl⟩
  | cons r rs ih =>
    obtain ⟨t, ht⟩ := runWord_completes r.word s
    obtain ⟨e, he, hevents⟩ := ih t
    have hword : applyEvent (.command r.word) s = .next t := ht
    exact ⟨_, runFrom_cons ht he, by rw [List.map_cons, applyEvents_cons hword, hevents]⟩

/-- A run after a run (R39, R189). -/
theorem runFrom_append {rs rs' : List RunItem} {s : State} {e e' : RunEnd} (h : runFrom rs s = .next e)
    (h' : runFrom rs' e.final = .next e') :
    runFrom (rs ++ rs') s = .next ⟨e'.final, e.reads ++ e'.reads⟩ := by
  induction rs generalizing s e with
  | nil =>
    cases h
    exact h'
  | cons r rs ih =>
    obtain ⟨t, e₁, hword, hrest, hfinal, hreads⟩ := runFrom_cons_cases h
    rw [hfinal] at h'
    rw [List.cons_append, runFrom_cons hword (ih hrest h'), hreads, record_append]

/-- A run on a faulted engine ends where it begins (R167). -/
theorem runFrom_final_of_fault {rs : List RunItem} {s : State} {e : RunEnd} (hf : s.fault = true)
    (h : runFrom rs s = .next e) : e.final = s := by
  obtain ⟨e', he', hevents⟩ := runFrom_completes rs s
  cases h.symm.trans he'
  exact Host.Outcome.next.inj (hevents.symm.trans (applyEvents_of_fault hf (by simp)))

/-- Every initial part of a good run is good: what follows could not have led out of a fault (R167, R189). -/
theorem runFrom_take_good {rs : List RunItem} {s : State} {e : RunEnd} (h : runFrom rs s = .next e) (hgood : e.good)
    (n : Nat) : ∃ e', runFrom (rs.take n) s = .next e' ∧ e'.good := by
  obtain ⟨e₁, hfront, -⟩ := runFrom_completes (rs.take n) s
  obtain ⟨e₂, hback, -⟩ := runFrom_completes (rs.drop n) e₁.final
  have hwhole := runFrom_append hfront hback
  rw [List.take_append_drop] at hwhole
  cases h.symm.trans hwhole
  refine ⟨e₁, hfront, Bool.eq_false_of_not_eq_true fun hfault => ?_⟩
  have hend : e₂.final.fault = true := by rw [runFrom_final_of_fault hfault hback, hfault]
  exact Bool.false_ne_true (Eq.trans (Eq.symm hgood) hend)

/-- One more command at the end of a run, and what the host reads after it (R23, R189). -/
theorem runFrom_append_singleton {rs : List RunItem} {s t : State} {e : RunEnd} {r : RunItem}
    (h : runFrom rs s = .next e) (ht : runWord r.word e.final = .next t) :
    runFrom (rs ++ [r]) s =
      .next ⟨t, if r.read ∧ isDataWord r.word then e.reads ++ [t.blk] else e.reads⟩ := by
  rw [runFrom_append h (runFrom_cons ht (runFrom_nil t))]
  by_cases hread : r.read = true ∧ isDataWord r.word = true
  · simp [RunItem.record, hread, State.hostView]
  · rw [if_neg hread, RunItem.record, if_neg (by simpa using hread), List.append_nil]

end Sys2Proof.Machine

namespace Sys2Proof

open Sys2Proof.Machine

/-- Settles O16: commands, steps and runs complete, and runs compose. -/
theorem everyCommandCompletes : Obligations.EveryCommandCompletes := by
  refine ⟨exec_completes, fun _ hw => step_completes hw, fun rs s => ?_⟩
  obtain ⟨e, he, hevents⟩ := runFrom_completes rs s
  refine ⟨e, he, hevents, fun hgood n => runFrom_take_good he hgood n, fun r => ?_⟩
  obtain ⟨t, ht⟩ := runWord_completes r.word e.final
  exact ⟨t, ht, runFrom_append_singleton he ht⟩

end Sys2Proof

/-! # Constants, exclusive-or and complement through the permutations (40_permute.md R72, 42_keyschedule.md R94)

A permutation and a rotation copy bits, so they commute with the bitwise operations. Of the laws for constants only
the one for zeros needs a proof of its own: the all-ones string is the complement of the all-zero one. -/

namespace Sys2Proof.Machine

section Bitwise

variable {n m : Nat}

/-- Position `p` of an exclusive or. -/
theorem bitAt_xor (a b : BitVec n) (p : Nat) : bitAt (a ^^^ b) p = (bitAt a p ^^ bitAt b p) := by
  cases p with
  | zero => rfl
  | succ p => simp

/-- Position `p` of a complement, for a position of the string. -/
theorem bitAt_not (a : BitVec n) {p : Nat} (h1 : 1 ≤ p) (hp : p ≤ n) : bitAt (~~~a) p = !bitAt a p := by
  have hinside : p - 1 < n := by omega
  rw [bitAt_of_pos _ h1, bitAt_of_pos _ h1, BitVec.getMsbD_not, decide_eq_true hinside, Bool.true_and]

/-- A permutation of zeros is zeros, for any table (R72 (a)). -/
@[simp] theorem permute_zeros (t : Vector Nat m) : permute (0#n) t = 0#m :=
  eq_of_bitAt_eq fun p h1 hp => by rw [bitAt_permute _ t h1 hp, bitAt_zeros, bitAt_zeros]

/-- A permutation of an exclusive or is the exclusive or of the permutations, for any table (R72 (b)). -/
theorem permute_xor (a b : BitVec n) (t : Vector Nat m) :
    permute (a ^^^ b) t = permute a t ^^^ permute b t := by
  refine eq_of_bitAt_eq fun p h1 hp => ?_
  rw [bitAt_xor, bitAt_permute _ t h1 hp, bitAt_permute _ t h1 hp, bitAt_permute _ t h1 hp, bitAt_xor]

/-- A permutation of a complement is the complement of the permutation, for a table that fits its input (R72 (b)). -/
theorem permute_not {t : Vector Nat m} (ht : ∀ (i : Nat) (_ : i < m), 1 ≤ t[i] ∧ t[i] ≤ n) (a : BitVec n) :
    permute (~~~a) t = ~~~permute a t := by
  refine eq_of_bitAt_eq fun p h1 hp => ?_
  obtain ⟨hpos, hle⟩ := ht (p - 1) (by omega)
  rw [bitAt_not _ h1 hp, bitAt_permute _ t h1 hp, bitAt_permute _ t h1 hp, bitAt_not _ hpos hle]

/-- A permutation of ones is ones, for a table that fits its input (R72 (a)). -/
theorem permute_allOnes {t : Vector Nat m} (ht : ∀ (i : Nat) (_ : i < m), 1 ≤ t[i] ∧ t[i] ≤ n) :
    permute (BitVec.allOnes n) t = BitVec.allOnes m := by
  rw [← BitVec.not_zero, permute_not ht, permute_zeros, BitVec.not_zero]

/-- A run of positions of a complement is the complement of the run. -/
theorem substr_not (a : BitVec n) {p len : Nat} (hp : 1 ≤ p) (hn : p + len - 1 ≤ n) :
    substr (~~~a) p len = ~~~substr a p len := by
  refine eq_of_bitAt_eq fun q h1 hq => ?_
  rw [bitAt_substr _ hp h1 hq hn, bitAt_not _ (by omega) (by omega), bitAt_not _ h1 hq, bitAt_substr _ hp h1 hq hn]

end Bitwise

/-! ## Rotations of a key state -/

section Rotation

variable (s s' : Nat)

/-- A rotation after a rotation is one rotation by both counts (R85). -/
theorem rotl28_rotl28 (h : BitVec 28) : rotl28 (rotl28 h s) s' = rotl28 h (s + s') := by
  refine eq_of_bitAt_eq fun p h1 hp => ?_
  have hsource : ((p - 1 + s') % 28 + 1 - 1 + s) % 28 = (p - 1 + (s + s')) % 28 := by omega
  rw [bitAt_rotl28 _ _ h1 hp, bitAt_rotl28 _ _ (by omega) (by omega), bitAt_rotl28 _ _ h1 hp, hsource]

/-- A whole turn changes nothing (R85). -/
@[simp] theorem rotl28_turn (h : BitVec 28) : rotl28 h 28 = h := by
  refine eq_of_bitAt_eq fun p h1 hp => ?_
  rw [bitAt_rotl28_leading h 28 h1 hp, Nat.mod_self, Nat.zero_add]

/-- A rotation of a complement is the complement of the rotation. -/
theorem rotl28_not (h : BitVec 28) : rotl28 (~~~h) s = ~~~rotl28 h s := by
  refine eq_of_bitAt_eq fun p h1 hp => ?_
  rw [bitAt_rotl28 _ _ h1 hp, bitAt_not _ (by omega) (by omega), bitAt_not _ h1 hp, bitAt_rotl28 _ _ h1 hp]

/-- A rotation of zeros is zeros. -/
@[simp] theorem rotl28_zeros : rotl28 (0#28) s = 0#28 :=
  eq_of_bitAt_eq fun p h1 hp => by rw [bitAt_rotl28 _ _ h1 hp, bitAt_zeros, bitAt_zeros]

/-- A key state is its two halves (R86). -/
theorem keyState_halves (st : KeyState) : (substr st 1 28 ++ substr st 29 28 : BitVec 56) = st := by
  refine BitVec.eq_of_getLsbD_eq fun i hi => ?_
  simp only [substr, BitVec.getLsbD_append, BitVec.getLsbD_extractLsb']
  by_cases hright : i < 28
  · simp [hright]
  · have hleft : i - 28 < 28 := by omega
    have hindex : 28 + (i - 28) = i := by omega
    simp [hright, hleft, hindex]

/-- Rotations of a key state add up (R86). -/
theorem rotateHalves_rotateHalves (st : KeyState) :
    rotateHalves (rotateHalves st s) s' = rotateHalves st (s + s') := by
  have hhalves := rotateHalves_append s' (rotl28 (substr st 1 28) s) (rotl28 (substr st 29 28) s)
  rw [rotl28_rotl28, rotl28_rotl28] at hhalves
  exact hhalves

/-- A whole turn of both halves changes nothing (R94 (a)). -/
theorem rotateHalves_turn (st : KeyState) : rotateHalves st 28 = st := by
  rw [rotateHalves, rotl28_turn, rotl28_turn, keyState_halves]

/-- A rotation by no position changes nothing (R86). -/
theorem rotateHalves_zero (st : KeyState) : rotateHalves st 0 = st := by
  rw [rotateHalves, rotl28_zero, rotl28_zero, keyState_halves]

/-- A rotation of a complemented key state is the complement of the rotated one. -/
theorem rotateHalves_not (st : KeyState) : rotateHalves (~~~st) s = ~~~rotateHalves st s := by
  rw [rotateHalves, substr_not _ (by decide) (by decide), substr_not _ (by decide) (by decide), rotl28_not,
    rotl28_not, ← BitVec.not_append, ← rotateHalves]

/-- A rotation of zeros is zeros. -/
theorem rotateHalves_zeros : rotateHalves 0#56 s = 0#56 := by
  have hhalves : (0#56 : KeyState) = (0#28 ++ 0#28 : BitVec 56) := by decide
  rw [hhalves, rotateHalves_append, rotl28_zeros]

end Rotation

/-! ## The key states and the subkeys -/

section Schedule

variable {c : Cfg}

/-- The subkey an index of `GETSK` or `ROUND` names (R87). -/
theorem generateSubkeys_getElem_fin (c : Cfg) (k : KsSteps) (key : Block) (i : Fin 16) :
    (generateSubkeys c k key)[i] = derivedSubkey c k key i.val :=
  getElem_generateSubkeys c k key i.val i.isLt

/-- Key state `n` is the first one rotated by the sum of the first `n` entries of `CFG.SHIFT` (R87). -/
theorem keyState_eq_rotateHalves_sum (c : Cfg) (key : Block) (n : Nat) :
    keyState c key n = rotateHalves (keyState c key 0) (c.shift.toList.take n).sum := by
  induction n with
  | zero => exact (rotateHalves_zero _).symm
  | succ n ih =>
    have hsum : (c.shift.toList.take (n + 1)).sum =
        (c.shift.toList.take n).sum + c.shift.toList.getD n 0 := by
      rw [List.take_add_one, List.sum_append, List.getD_eq_getElem?_getD]
      cases c.shift.toList[n]? <;> simp
    calc keyState c key (n + 1) = rotateHalves (keyState c key n) (c.shift.toList.getD n 0) := rfl
      _ = rotateHalves (keyState c key 0) (c.shift.toList.take (n + 1)).sum := by
        rw [ih, rotateHalves_rotateHalves, hsum]

/-- Every key state of the all-zero key is zero (R94 (d)). -/
theorem keyState_zeros (c : Cfg) (n : Nat) : keyState c 0#64 n = 0#56 := by
  induction n with
  | zero => exact permute_zeros c.pc1
  | succ n ih => rw [keyState, ih, rotateHalves_zeros]

/-- The key states of the complemented key are the complements (R94 (c)). -/
theorem keyState_not (hpc1 : entriesWithin 64 c.pc1 = true) (key : Block) (n : Nat) :
    keyState c (~~~key) n = ~~~keyState c key n := by
  induction n with
  | zero => exact permute_not (entriesWithin_getElem hpc1) key
  | succ n ih => rw [keyState, ih, rotateHalves_not, keyState]

/-- Every subkey of the all-zero key is zero, derived or not (R93, R94 (d)). -/
theorem derivedSubkey_zeros (c : Cfg) (k : KsSteps) (i : Nat) : derivedSubkey c k 0#64 i = 0#48 := by
  rw [derivedSubkey, keyState_zeros, permute_zeros, ite_self]

/-- The derived subkeys of the complemented key are the complements (R94 (c)). -/
theorem derivedSubkey_not (hc : c.wellFormed = true) {k : KsSteps} {i : Nat} (hi : i < k.steps) (key : Block) :
    derivedSubkey c k (~~~key) i = ~~~derivedSubkey c k key i := by
  obtain ⟨-, -, -, -, -, -, hpc1, hpc2, -⟩ := Cfg.wellFormed_parts hc
  rw [derivedSubkey, derivedSubkey, if_pos hi, if_pos hi, keyState_not hpc1,
    permute_not (entriesWithin_getElem hpc2)]

/-- The derived subkeys of the all-ones key are all ones (R94 (d)). -/
theorem derivedSubkey_allOnes (hc : c.wellFormed = true) {k : KsSteps} {i : Nat} (hi : i < k.steps) :
    derivedSubkey c k (BitVec.allOnes 64) i = BitVec.allOnes 48 := by
  rw [← BitVec.not_zero, derivedSubkey_not hc hi, derivedSubkey_zeros, BitVec.not_zero]

/-- The key states read the key through `PC1` alone (R87). -/
theorem keyState_congr {key key' : Block} (h : permute key c.pc1 = permute key' c.pc1) (n : Nat) :
    keyState c key n = keyState c key' n := by
  induction n with
  | zero => exact h
  | succ n ih => rw [keyState, ih, keyState]

/-- So do the subkeys (R87). -/
theorem generateSubkeys_congr {key key' : Block} (h : permute key c.pc1 = permute key' c.pc1) (k : KsSteps) :
    generateSubkeys c k key = generateSubkeys c k key' := by
  simp only [generateSubkeys, derivedSubkey, keyState_congr h]

end Schedule

/-- The default `PC1` names positions of the key, and none of the positions 8, 16, ..., 64 (R145). -/
theorem defaultPc1_entries : ∀ i : Fin 56,
    1 ≤ Cfg.default.pc1[i] ∧ Cfg.default.pc1[i] ≤ 64 ∧ Cfg.default.pc1[i] % 8 ≠ 0 := by decide

end Sys2Proof.Machine

namespace Sys2Proof

open Sys2Proof.Machine

/-- Settles O43: a permutation copies bits, and the checks of R140 make `IP` and `IPINV` inverse. -/
theorem permuteLaws : Obligations.PermuteLaws :=
  ⟨fun _ _ t ht => ⟨permute_zeros t, permute_allOnes ht, fun a b => permute_xor a b t, permute_not ht⟩,
    fun _ x hc => ⟨permute_ipinv_permute_ip hc x, permute_ip_permute_ipinv hc x⟩⟩

/-- Settles O46: sixteen rotations are one by the sum of the counts; zeros and complements pass through every step of
the schedule. -/
theorem keyScheduleProperties : Obligations.KeyScheduleProperties := by
  refine ⟨fun c key hsum => ?_, fun c k i hc => ?_⟩
  · have hall : c.shift.toList.take 16 = c.shift.toList := List.take_of_length_le (by simp)
    rw [keyState_eq_rotateHalves_sum, hall, hsum, rotateHalves_turn]
  · simp only [generateSubkeys_getElem_fin]
    exact ⟨derivedSubkey_zeros c k i.val, derivedSubkey_allOnes hc, derivedSubkey_not hc⟩

/-- Settles O47: the default `PC1` copies none of the positions 8, 16, ..., 64. -/
theorem defaultParityPositionsAreIgnored : Obligations.DefaultParityPositionsAreIgnored := by
  intro k key key' hagree
  refine generateSubkeys_congr (eq_of_bitAt_eq fun p h1 hp => ?_) k
  obtain ⟨hpos, hle, hmod⟩ := defaultPc1_entries ⟨p - 1, by omega⟩
  rw [bitAt_permute _ _ h1 hp, bitAt_permute _ _ h1 hp]
  exact hagree _ hpos hle hmod

/-- Settles O48: a subkey depends on the strap only through whether its step is performed. -/
theorem compatModeDiffersOnlyInSubkey15 : Obligations.CompatModeDiffersOnlyInSubkey15 := by
  refine fun c key => ⟨fun i hi => ?_, getElem_generateSubkeys c .fifteen key 15 (by decide)⟩
  have hcompat : i.val < KsSteps.fifteen.steps := hi
  have hdefault : i.val < KsSteps.sixteen.steps := i.isLt
  rw [generateSubkeys_getElem_fin, generateSubkeys_getElem_fin, derivedSubkey, derivedSubkey, if_pos hcompat,
    if_pos hdefault]

end Sys2Proof

/-! # Rounds, `ENC` and `DEC` as units, and complemented ciphertexts (43_round.md, 44_block.md)

`ENC` and `DEC` are their chains of rounds whether the engine takes one command or nineteen (R119); a complemented
subkey cancels a complemented right half inside the round function, so a complement passes through every round. -/

namespace Sys2Proof.Machine

/-! ## Sequences of commands -/

/-- A list of commands after a list of commands. -/
theorem execAll_append {is js : List Instr} {s t : State} (h : execAll is s = .next t) :
    execAll (is ++ js) s = execAll js t := by
  induction is generalizing s with
  | nil => cases h; rfl
  | cons i is ih =>
    obtain ⟨u, hu⟩ := exec_completes i s
    rw [execAll_cons hu] at h
    rw [List.cons_append, execAll_cons hu, ih h]

/-- A faulted engine ignores every list of commands (R167). -/
theorem execAll_of_fault {s : State} (hf : s.fault = true) (is : List Instr) : execAll is s = .next s := by
  induction is with
  | nil => rfl
  | cons i is ih => rw [execAll_cons (exec_of_fault hf i), ih]

/-- `n` rounds with the subkeys `k 0`, `k 1`, ... -/
def roundCommands (k : Nat → SubkeyIndex) (n : Nat) : List Instr := (List.range n).map fun i => .round (k i)

/-- The sequence of unit commands of R119, with subkey `k i` in round `i`. -/
def unitCommands (k : Nat → SubkeyIndex) : List Instr :=
  .permIp :: (roundCommands k 16 ++ [.swap, .permIpinv])

section Units

variable {s : State} (hf : s.fault = false) (k : Nat → SubkeyIndex)

include hf

/-- `n` `ROUND`s leave the block after `n` rounds in `BLK` (R104, R112). -/
theorem execAll_roundCommands (hk : s.kvalid = true) (x : Block) (n : Nat) :
    execAll (roundCommands k n) (s.setBlk x) =
      .next (s.setBlk (blockAfter s.cfg (fun i => s.sk[k i]) x n)) := by
  have hround (y : Block) (i : Nat) :
      exec (.round (k i)) (s.setBlk y) = .next (s.setBlk (feistelRound s.cfg y s.sk[k i])) :=
    exec_round_of_ready (s := s.setBlk y) hf hk (k i)
  induction n with
  | zero => rfl
  | succ n ih =>
    rw [roundCommands, List.range_succ, List.map_append, ← roundCommands, execAll_append ih, List.map_singleton,
      execAll_cons (hround _ n), execAll, blockAfter]

/-- The unit commands do to `BLK` what the block processor does (R119). -/
theorem execAll_unitCommands_of_ready (hk : s.kvalid = true) :
    execAll (unitCommands k) s = .next (s.setBlk (cipherBlock s.cfg (fun i => s.sk[k i]) s.blk)) := by
  have hswap (x : Block) : exec .swap (s.setBlk x) = .next (s.setBlk (swapHalves x)) :=
    exec_swap_of_running (s := s.setBlk x) hf
  have hipinv (x : Block) : exec .permIpinv (s.setBlk x) = .next (s.setBlk (permute x s.cfg.ipinv)) :=
    exec_permIpinv_of_running (s := s.setBlk x) hf
  rw [unitCommands, execAll_cons (exec_permIp_of_running hf), execAll_append (execAll_roundCommands hf k hk _ 16),
    execAll_cons (hswap _), execAll_cons (hipinv _), execAll, cipherBlock]

/-- Without valid subkeys the unit commands stop at the first round, behind `PERM.IP` (R119, R163). -/
theorem execAll_unitCommands_of_notReady (hk : s.kvalid = false) :
    execAll (unitCommands k) s =
      .next ((s.setBlk (permute s.blk s.cfg.ip)).raiseFault .subkeysNotReady) := by
  have hround := exec_of_subkeysNotReady (i := .round (k 0)) (s := s.setBlk (permute s.blk s.cfg.ip))
    (by simp [mnemonicOf]) hf hk
  rw [unitCommands, execAll_cons (exec_permIp_of_running hf), roundCommands, List.range_succ_eq_map, List.map_cons,
    List.cons_append, execAll_cons hround, execAll_of_fault rfl]

end Units

/-! ## Complements -/

/-- The left half of a complement. -/
theorem leftHalf_not (b : Block) : leftHalf (~~~b) = ~~~leftHalf b := substr_not b (by decide) (by decide)

/-- The right half of a complement. -/
theorem rightHalf_not (b : Block) : rightHalf (~~~b) = ~~~rightHalf b := substr_not b (by decide) (by decide)

/-- A swap of a complement is the complement of the swap. -/
theorem swapHalves_not (b : Block) : swapHalves (~~~b) = ~~~swapHalves b :=
  eq_of_halves (by simp only [leftHalf_swapHalves, leftHalf_not, rightHalf_not])
    (by simp only [rightHalf_swapHalves, leftHalf_not, rightHalf_not])

section Complement

variable {c : Cfg} (hc : c.wellFormed = true)

include hc

/-- In the round function a complemented subkey cancels a complemented half (R72 (b), R101). -/
theorem roundFunction_not (r : Half) (k : Subkey) : roundFunction c (~~~r) (~~~k) = roundFunction c r k := by
  obtain ⟨-, -, -, -, he, -⟩ := Cfg.wellFormed_parts hc
  have hmixed : permute (~~~r) c.e ^^^ ~~~k = permute r c.e ^^^ k := by
    rw [permute_not (entriesWithin_getElem he), ← BitVec.not_xor_left, ← BitVec.not_xor_right, BitVec.not_not]
  rw [roundFunction, hmixed, ← roundFunction]

/-- A round of the complements is the complement of the round (R101). -/
theorem feistelRound_not (b : Block) (k : Subkey) : feistelRound c (~~~b) (~~~k) = ~~~feistelRound c b k := by
  refine eq_of_halves ?_ ?_
  · rw [leftHalf_not, leftHalf_feistelRound, leftHalf_feistelRound, rightHalf_not]
  · rw [rightHalf_not, rightHalf_feistelRound, rightHalf_feistelRound, rightHalf_not, leftHalf_not,
      roundFunction_not hc, BitVec.not_xor_right]

/-- A chain of rounds on the complements gives the complements (R112). -/
theorem blockAfter_not (k : Nat → Subkey) (x : Block) (n : Nat) :
    blockAfter c (fun i => ~~~k i) (~~~x) n = ~~~blockAfter c k x n := by
  induction n with
  | zero => rfl
  | succ n ih => rw [blockAfter, ih, feistelRound_not hc, blockAfter]

/-- The block processor on the complements gives the complement (V47). -/
theorem cipherBlock_not (k : Nat → Subkey) (b : Block) :
    cipherBlock c (fun i => ~~~k i) (~~~b) = ~~~cipherBlock c k b := by
  obtain ⟨hip, -, hipinv, -⟩ := Cfg.wellFormed_parts hc
  rw [cipherBlock, permute_not (entriesWithin_getElem hip), blockAfter_not hc, swapHalves_not,
    permute_not (entriesWithin_getElem hipinv), cipherBlock]

/-- With all sixteen subkeys derived, encryption of the complement under the complemented key gives the complement
(V47). -/
theorem encryptBlock_not (key b : Block) :
    encryptBlock c (generateSubkeys c .sixteen (~~~key)) (~~~b) =
      ~~~encryptBlock c (generateSubkeys c .sixteen key) b := by
  have hkeys (i : Fin 16) :
      (generateSubkeys c .sixteen (~~~key))[i] = ~~~(generateSubkeys c .sixteen key)[i] := by
    rw [generateSubkeys_getElem_fin, generateSubkeys_getElem_fin]
    exact derivedSubkey_not hc i.isLt key
  simp only [encryptBlock, hkeys, cipherBlock_not hc]

end Complement

/-! ## `ENC` and `DEC` one after the other -/

/-- `ENC` then `DEC`, or `DEC` then `ENC`, on an engine with valid subkeys (R115, R117). -/
theorem execAll_enc_dec {s : State} (hc : s.cfg.wellFormed = true) (hf : s.fault = false) (hk : s.kvalid = true) :
    execAll [.enc, .dec] s = .next s ∧ execAll [.dec, .enc] s = .next s := by
  have henc (x : Block) : exec .enc (s.setBlk x) = .next (s.setBlk (encryptBlock s.cfg s.sk x)) :=
    exec_enc_of_ready (s := s.setBlk x) hf hk
  have hdec (x : Block) : exec .dec (s.setBlk x) = .next (s.setBlk (decryptBlock s.cfg s.sk x)) :=
    exec_dec_of_ready (s := s.setBlk x) hf hk
  constructor
  · rw [execAll_cons (exec_enc_of_ready hf hk), execAll_cons (hdec _), execAll, decryptBlock_encryptBlock hc]
    rfl
  · rw [execAll_cons (exec_dec_of_ready hf hk), execAll_cons (henc _), execAll, encryptBlock_decryptBlock hc]
    rfl

end Sys2Proof.Machine

namespace Sys2Proof

open Sys2Proof.Machine

/-- Settles O50: the round takes the swapped block back to the swapped start. -/
theorem roundUndoneBySwapRoundSwap : Obligations.RoundUndoneBySwapRoundSwap := by
  intro c b k
  rw [feistelRound_swapHalves_feistelRound, swapHalves_swapHalves]

/-- Settles O52: the second command writes back the block the first one read. -/
theorem encThenDecRestoresTheState : Obligations.EncThenDecRestoresTheState :=
  fun _ hc hf hk => execAll_enc_dec hc hf hk

/-- Settles O53: both sequences are `unitCommands`, with subkey `i` and with subkey `15 - i` in round `i`. -/
theorem encAndDecDecomposeIntoUnits : Obligations.EncAndDecDecomposeIntoUnits := by
  refine fun s hf => ⟨fun hk => ⟨?_, ?_⟩, fun hk => ⟨?_, ?_, ?_, ?_⟩⟩
  · rw [exec_enc_of_ready hf hk]
    exact execAll_unitCommands_of_ready hf (fun i => Fin.ofNat 16 i) hk
  · rw [exec_dec_of_ready hf hk]
    exact execAll_unitCommands_of_ready hf (fun i => Fin.ofNat 16 (15 - i)) hk
  · exact exec_of_subkeysNotReady (by decide) hf hk
  · exact exec_of_subkeysNotReady (by decide) hf hk
  · exact execAll_unitCommands_of_notReady hf (fun i => Fin.ofNat 16 i) hk
  · exact execAll_unitCommands_of_notReady hf (fun i => Fin.ofNat 16 (15 - i)) hk

/-- Settles O54: all sixteen subkeys of the complemented key are complements, and so is every block of the chain. -/
theorem complementedKeyAndBlockComplementCiphertext : Obligations.ComplementedKeyAndBlockComplementCiphertext :=
  fun _ key b hc => encryptBlock_not hc key b

end Sys2Proof

/-! # A whole run of the host, and listing lines (45_host_stream.md R137, 20_memory.md R33, 30_encoding.md R54)

On an engine with valid subkeys the loop of R137 puts every block through the block processor and keeps the engine as
it is but for `BLK`. A decryption run gets the blocks of the encryption run back from the framed stream (R128, R132),
and the two block processors undo each other (R117). -/

namespace Sys2Proof.Machine

/-! ## Keys -/

/-- A text is 8 ASCII characters when it has 8 characters and each is below 128 (R33). -/
theorem isText8_eq_true_iff (cs : List Char) :
    isText8 cs = true ↔ cs.length = 8 ∧ ∀ ch ∈ cs, ch.toNat < 128 := by
  simp [isText8, isAscii, Nat.blt_eq]

/-- An accepted text is the key its characters spell (R131). -/
theorem hostKey_of_isText8 {cs : List Char} (h : isText8 cs = true) : hostKey cs = .ok (blockOfText cs) := if_pos h

/-- The bytes of a text key are its characters, in order (R33). -/
theorem bytesOfBlock_blockOfText {cs : List Char} (h : cs.length = 8) :
    bytesOfBlock (blockOfText cs) = cs.map fun ch => BitVec.ofNat 8 ch.toNat :=
  bytesOfBlock_blockOfBytes (by rw [List.length_map, h])

/-! ## Presented commands -/

/-- The host presents a command that leaves `FAULT` at 0, and gets the engine after it (R137). -/
theorem presentCommand_of_exec {i : Instr} {s t : State} (h : exec i s = .next t) (hf : t.fault = false) :
    presentCommand i s = .ok t :=
  presentCommand_of_next ((runWord_of_ok (decodeWord_encode i) s).trans h) ((status_getLsbD_one t).trans hf)

/-- What a run's direction does to a block (R134, R137). -/
def Direction.transform (d : Direction) (c : Cfg) (sk : SubkeyStore) (b : Block) : Block :=
  match d with
  | .encrypt => encryptBlock c sk b
  | .decrypt => decryptBlock c sk b

section Ready

variable {s : State} (hf : s.fault = false) (hk : s.kvalid = true)

include hf hk

/-- The command of a run's direction on an engine with valid subkeys (R114, R115). -/
theorem exec_command_of_ready (d : Direction) :
    exec d.command s = .next (s.setBlk (d.transform s.cfg s.sk s.blk)) := by
  cases d with
  | encrypt => exact exec_enc_of_ready hf hk
  | decrypt => exact exec_dec_of_ready hf hk

/-- The loop of R137 transforms block by block, whatever the loop before it left in `BLK` (R130). -/
theorem hostBlocks_of_ready (d : Direction) (bs : List Block) (x : Block) :
    hostBlocks d bs (s.setBlk x) = .ok (bs.map (d.transform s.cfg s.sk)) := by
  induction bs generalizing x with
  | nil => rfl
  | cons b bs ih =>
    have hload : presentCommand (.ldblk b) (s.setBlk x) = .ok (s.setBlk b) :=
      presentCommand_of_exec (exec_ldblk_of_running (s := s.setBlk x) hf b) hf
    have hcommand : presentCommand d.command (s.setBlk b) = .ok (s.setBlk (d.transform s.cfg s.sk b)) :=
      presentCommand_of_exec (exec_command_of_ready (s := s.setBlk b) hf hk d) hf
    simp only [hostBlocks, hload, hcommand, ih]
    rfl

end Ready

/-- A run of the host on an engine without a fault: the key is set, and every block is transformed under its subkeys
(R131, R137). -/
theorem hostRun_of_running {s : State} (hf : s.fault = false) (d : Direction) (key : Block) (bs : List Block) :
    hostRun d key bs s = .ok (bs.map (d.transform s.cfg (generateSubkeys s.cfg s.ksSteps key))) := by
  have hkey : presentCommand (.ldkey key) s = .ok { s with key := key, kvalid := false } :=
    presentCommand_of_exec (exec_ldkey_of_running hf key) hf
  have hsubkeys := presentCommand_of_exec (exec_ksgen_of_running (s := { s with key := key, kvalid := false }) hf) hf
  simp only [hostRun, hkey, hsubkeys]
  exact hostBlocks_of_ready (s := { s with key := key, sk := generateSubkeys s.cfg s.ksSteps key, kvalid := true })
    hf rfl d bs s.blk

/-! ## Streams -/

@[simp] theorem length_bytesOfBlock (b : Block) : (bytesOfBlock b).length = 8 := length_toBytes 8 b

/-- The blocks of a stream of whole blocks are those blocks (R128). -/
theorem wholeBlocks_bytesOfBlocks (bs : List Block) : wholeBlocks (bytesOfBlocks bs) = .ok bs := by
  induction bs with
  | nil => rfl
  | cons b bs ih =>
    rw [bytesOfBlocks_cons, wholeBlocks_append _ (length_bytesOfBlock b), ih, blockOfBytes_bytesOfBlock]

/-- The character of a bit is one byte of the stream and reads back from it (R132). -/
theorem ofNat_toNat_bitChar : ∀ b, Char.ofNat (BitVec.ofNat 8 (bitChar b).toNat).toNat = bitChar b := by decide

/-- Bit text held as bytes reads back as the same characters (R132). -/
theorem map_ofNat_rawBytes_toBitText (bs : List Byte) :
    (rawBytes (toBitText bs)).map (fun b => Char.ofNat b.toNat) = toBitText bs := by
  rw [toBitText_eq_map, rawBytes, List.map_map, List.map_map]
  exact List.map_congr_left fun b _ => ofNat_toNat_bitChar b

/-- A framed ciphertext is read back unchanged in either framing (R132, R133). -/
theorem unframeCiphertext_frameCiphertext (f : Framing) (bs : List Byte) :
    unframeCiphertext f (frameCiphertext f bs) = .ok bs := by
  cases f with
  | bitText => rw [frameCiphertext, unframeCiphertext, map_ofNat_rawBytes_toBitText, ofBitText_toBitText]
  | raw => rfl

/-- Decryption of an encrypted block under the same subkeys gives the block back (R117). -/
theorem map_decrypt_map_encrypt {c : Cfg} (hc : c.wellFormed = true) (sk : SubkeyStore) (bs : List Block) :
    (bs.map (Direction.encrypt.transform c sk)).map (Direction.decrypt.transform c sk) = bs := by
  rw [List.map_map]
  exact List.map_id'' (decryptBlock_encryptBlock hc sk) bs

section Streams

variable {s : State} (hf : s.fault = false) {key : List Char} (hkey : isText8 key = true) (f : Framing)

include hf hkey

/-- An encryption run gives the framed bytes of the encrypted blocks (R125, R132, R137). -/
theorem encryptStream_of_running (input : List Byte) :
    encryptStream f key input s = .ok (frameCiphertext f (bytesOfBlocks ((padBlocks input).map
      (Direction.encrypt.transform s.cfg (generateSubkeys s.cfg s.ksSteps (blockOfText key)))))) := by
  simp only [encryptStream, hostKey_of_isText8 hkey, hostRun_of_running hf]

/-- A decryption run of framed whole blocks gives the bytes of the decrypted blocks (R128, R137). -/
theorem decryptStream_of_running (bs : List Block) :
    decryptStream f key (frameCiphertext f (bytesOfBlocks bs)) s = .ok (bytesOfBlocks (bs.map
      (Direction.decrypt.transform s.cfg (generateSubkeys s.cfg s.ksSteps (blockOfText key))))) := by
  simp only [decryptStream, hostKey_of_isText8 hkey, unframeCiphertext_frameCiphertext, wholeBlocks_bytesOfBlocks,
    hostRun_of_running hf]

end Streams

end Sys2Proof.Machine

namespace Sys2Proof

open Sys2Proof.Machine

/-- Settles O55: the check of a key is the one for 8 ASCII characters, and eight bytes are read back from their
block. -/
theorem textKeysAreEightAsciiCharacters : Obligations.TextKeysAreEightAsciiCharacters := by
  refine ⟨fun cs => ⟨fun htext => ?_, fun hnot => ?_⟩, by decide,
    fun bs h => bytesOfBlock_blockOfBytes h, by decide⟩
  · refine ⟨blockOfText cs, hostKey_of_isText8 ((isText8_eq_true_iff cs).mpr htext), fun j hj => ?_⟩
    rw [bytesOfBlock_blockOfText htext.left, List.getElem?_map, List.getElem?_eq_getElem hj, Option.map_some]
  · exact if_neg (mt (isText8_eq_true_iff cs).mp hnot)

/-- Settles O59: the decryption run reads the encrypted blocks back and decrypts each, which leaves the padded
input. -/
theorem decryptedStreamIsThePaddedInput : Obligations.DecryptedStreamIsThePaddedInput := by
  intro c k f key input hc hkey
  have hrunning : (State.resetWith c k).fault = false := resetWith_fault c k
  refine ⟨_, encryptStream_of_running hrunning hkey f input, ?_⟩
  rw [decryptStream_of_running hrunning hkey, resetWith_cfg, map_decrypt_map_encrypt hc, bytesOfBlocks_padBlocks]

/-- Settles O60: a line in range expands to its commands, a line out of range to nothing. -/
theorem pseudoCommandExpansions : Obligations.PseudoCommandExpansions := by
  refine ⟨fun imm himm => ⟨if_pos himm, if_pos himm, if_pos himm⟩, by decide, fun t ht => ?_, by decide⟩
  have hout : ¬ Nat.blt t 6 = true := by rw [Nat.blt_eq]; omega
  exact if_neg hout

end Sys2Proof
